-- ==== Sys2Proof/Word.lean ====
section
/-! DEFINITION. The word types of the iron-chip CORE (00_scope.md R7, R8): every value is unsigned. -/

namespace Sys2Proof

/-- A memory cell, a V register, a timer: 8 bits (R8). -/
abbrev Byte := BitVec 8

/-- An opcode, I, pc, a stack entry: 16 bits (R8). -/
abbrev Word := BitVec 16

/-- The field NNN: a 12-bit address (R53). -/
abbrev Addr12 := BitVec 12

/-- A register index, the fields X and Y: all sixteen values are legal (R56). -/
abbrev RegIx := Fin 16

/-- One word of the display output: 32 bits (R110). -/
abbrev Pixel := BitVec 32

end Sys2Proof
end

