-- ==== Sys2Proof/Syntax.lean ====
section
/-! DEFINITION. The instructions: one constructor per row of spec/opcode_table.json (30_encoding.md R57, R58). -/

namespace Sys2Proof

/-- The sixteen implemented instructions and the explicit variant for every other word (R57). -/
inductive Instr where
  /-- 00E0, CLS (R86). -/
  | cls
  /-- 1NNN, JP (R72). -/
  | jp (nnn : Addr12)
  /-- 2NNN, CALL (R73). -/
  | call (nnn : Addr12)
  /-- 3XNN, SE Vx, nn (R74). -/
  | seImm (x : RegIx) (nn : Byte)
  /-- 4XNN, SNE Vx, nn (R75). -/
  | sneImm (x : RegIx) (nn : Byte)
  /-- 5XY0, SE Vx, Vy (R76). -/
  | seReg (x y : RegIx)
  /-- 6XNN, LD Vx, nn (R78). -/
  | ldImm (x : RegIx) (nn : Byte)
  /-- 7XNN, ADD Vx, nn (R79). -/
  | addImm (x : RegIx) (nn : Byte)
  /-- 8XY0, LD Vx, Vy (R80). -/
  | ldReg (x y : RegIx)
  /-- 8XY2, AND Vx, Vy (R81). -/
  | andReg (x y : RegIx)
  /-- 8XY4, ADD Vx, Vy (R82). -/
  | addReg (x y : RegIx)
  /-- 9XY0, SNE Vx, Vy (R77). -/
  | sneReg (x y : RegIx)
  /-- ANNN, LD I, nnn (R83). -/
  | ldI (nnn : Addr12)
  /-- DXYN, DRW Vx, Vy, n (R87). -/
  | drw (x y : RegIx) (n : BitVec 4)
  /-- FX1E, ADD I, Vx (R84). -/
  | addI (x : RegIx)
  /-- FX65, LD Vx, [I] (R85). -/
  | ldMem (x : RegIx)
  /-- Any other word (R69), kept whole. -/
  | unrecognized (raw : Word)
deriving DecidableEq, Repr

end Sys2Proof
end

