-- ==== Sys2Proof/WellFormed.lean ====
section
/-! DEFINITION. Which terms of `Instr` stand for a word. The field types already hold every operand to its width
(30_encoding.md R53, R56), so one check is left: `unrecognized raw` is an instruction exactly when `raw` matches none
of the sixteen patterns (R57). -/

namespace Sys2Proof

/-- A row of R57's list: a word matches when its masked bits are the row's. -/
structure Pattern where
  mask : Word
  val : Word
deriving DecidableEq, Repr

/-- The word matches the row: every literal nibble is equal (R10, R57). -/
def Pattern.matchesWord (p : Pattern) (w : Word) : Bool := w &&& p.mask == p.val

/-- R57's sixteen mask and match pairs, in the spec's order. -/
def patterns : List Pattern :=
  [⟨0xFFFF#16, 0x00E0#16⟩, ⟨0xF000#16, 0x1000#16⟩, ⟨0xF000#16, 0x2000#16⟩, ⟨0xF000#16, 0x3000#16⟩,
   ⟨0xF000#16, 0x4000#16⟩, ⟨0xF00F#16, 0x5000#16⟩, ⟨0xF000#16, 0x6000#16⟩, ⟨0xF000#16, 0x7000#16⟩,
   ⟨0xF00F#16, 0x8000#16⟩, ⟨0xF00F#16, 0x8002#16⟩, ⟨0xF00F#16, 0x8004#16⟩, ⟨0xF00F#16, 0x9000#16⟩,
   ⟨0xF000#16, 0xA000#16⟩, ⟨0xF000#16, 0xD000#16⟩, ⟨0xF0FF#16, 0xF01E#16⟩, ⟨0xF0FF#16, 0xF065#16⟩]

/-- Some implemented instruction has this word (R57, R58). -/
def isImplemented (w : Word) : Bool := patterns.any (·.matchesWord w)

/-- The row of R57's list that a constructor's words match; none for `unrecognized`, which has no row there. -/
def Instr.pattern : Instr → Option Pattern
  | .cls => some ⟨0xFFFF#16, 0x00E0#16⟩
  | .jp _ => some ⟨0xF000#16, 0x1000#16⟩
  | .call _ => some ⟨0xF000#16, 0x2000#16⟩
  | .seImm _ _ => some ⟨0xF000#16, 0x3000#16⟩
  | .sneImm _ _ => some ⟨0xF000#16, 0x4000#16⟩
  | .seReg _ _ => some ⟨0xF00F#16, 0x5000#16⟩
  | .ldImm _ _ => some ⟨0xF000#16, 0x6000#16⟩
  | .addImm _ _ => some ⟨0xF000#16, 0x7000#16⟩
  | .ldReg _ _ => some ⟨0xF00F#16, 0x8000#16⟩
  | .andReg _ _ => some ⟨0xF00F#16, 0x8002#16⟩
  | .addReg _ _ => some ⟨0xF00F#16, 0x8004#16⟩
  | .sneReg _ _ => some ⟨0xF00F#16, 0x9000#16⟩
  | .ldI _ => some ⟨0xF000#16, 0xA000#16⟩
  | .drw _ _ _ => some ⟨0xF000#16, 0xD000#16⟩
  | .addI _ => some ⟨0xF0FF#16, 0xF01E#16⟩
  | .ldMem _ => some ⟨0xF0FF#16, 0xF065#16⟩
  | .unrecognized _ => none

/-- The term stands for a word of the machine. -/
def Instr.wf : Instr → Bool
  | .cls => true
  | .jp _ => true
  | .call _ => true
  | .seImm _ _ => true
  | .sneImm _ _ => true
  | .seReg _ _ => true
  | .ldImm _ _ => true
  | .addImm _ _ => true
  | .ldReg _ _ => true
  | .andReg _ _ => true
  | .addReg _ _ => true
  | .sneReg _ _ => true
  | .ldI _ => true
  | .drw _ _ _ => true
  | .addI _ => true
  | .ldMem _ => true
  | .unrecognized raw => !isImplemented raw

end Sys2Proof
end

