-- ==== Sys2Proof/Decode.lean ====
section
/-! DEFINITION. The decoder (30_encoding.md R53, R54), the classification by class (R57, R58), the byte order of an
opcode in memory (20_memory.md R42), and the encoder (R63). -/

namespace Sys2Proof

/-- `v[hi:lo]` for the fields of R53: `bitField lo len w` is the field of `len` bits from bit `lo`. -/
def bitField (lo len : Nat) (w : Word) : BitVec len := w.extractLsb' lo len

/-- The decoded view of one opcode, R53's seven fields. It is not state (10_state.md R26). -/
structure Fields where
  /-- The class, op[15:12]. -/
  c : BitVec 4
  /-- op[11:8]. -/
  x : RegIx
  /-- op[7:4]. -/
  y : RegIx
  /-- op[3:0]. -/
  n : BitVec 4
  /-- op[7:0]. -/
  nn : Byte
  /-- op[11:0]. -/
  nnn : Addr12
  /-- The whole word. -/
  raw : Word
deriving DecidableEq, Repr

/-- Cut a word into its fields: pure and total, every word decodes (R54). -/
def fieldsOf (op : Word) : Fields where
  c := bitField 12 4 op
  x := (bitField 8 4 op).toFin
  y := (bitField 4 4 op).toFin
  n := bitField 0 4 op
  nn := bitField 0 8 op
  nnn := bitField 0 12 op
  raw := op

/-- The one variant a decoded word belongs to (R57), by class and then by the low nibble or the low byte (R58). -/
def classify (f : Fields) : Instr :=
  match f.c.toNat with
  | 0x0 => if f.raw = 0x00E0#16 then .cls else .unrecognized f.raw
  | 0x1 => .jp f.nnn
  | 0x2 => .call f.nnn
  | 0x3 => .seImm f.x f.nn
  | 0x4 => .sneImm f.x f.nn
  | 0x5 => if f.n = 0x0#4 then .seReg f.x f.y else .unrecognized f.raw
  | 0x6 => .ldImm f.x f.nn
  | 0x7 => .addImm f.x f.nn
  | 0x8 =>
    match f.n.toNat with
    | 0x0 => .ldReg f.x f.y
    | 0x2 => .andReg f.x f.y
    | 0x4 => .addReg f.x f.y
    | _ => .unrecognized f.raw
  | 0x9 => if f.n = 0x0#4 then .sneReg f.x f.y else .unrecognized f.raw
  | 0xA => .ldI f.nnn
  | 0xD => .drw f.x f.y f.n
  | 0xF =>
    match f.nn.toNat with
    | 0x1E => .addI f.x
    | 0x65 => .ldMem f.x
    | _ => .unrecognized f.raw
  | _ => .unrecognized f.raw

/-- The instruction a word stands for: decode, then classify (R64, R67, R68). -/
def decode (op : Word) : Instr := classify (fieldsOf op)

/-- The opcode whose first byte in memory is `hi`: big-endian, as R42 decides (D1, log 15). -/
def wordOfBytes (hi lo : Byte) : Word := hi ++ lo

/-- The byte stored at the lower address, bits 15..8 (R42). -/
def highByte (w : Word) : Byte := bitField 8 8 w

/-- The byte stored at the higher address, bits 7..0 (R42). -/
def lowByte (w : Word) : Byte := bitField 0 8 w

/-- Why a byte sequence gives no instruction. -/
inductive DecodeError where
  /-- Fewer than the two bytes every instruction has (R52). Raised by `decodeBytes` alone; the machine's own fetch
  always has both bytes or faults (R65). Safe: there is no word to execute. -/
  | truncated
deriving DecidableEq, Repr

/-- The first instruction of a byte sequence, and the rest of it. Total on any bytes (R52, R54). -/
def decodeBytes : List Byte → Except DecodeError (Instr × List Byte)
  | hi :: lo :: rest => .ok (decode (wordOfBytes hi lo), rest)
  | [_] => .error .truncated
  | [] => .error .truncated

/-- A register index as a nibble of the word. -/
def regNibble (r : RegIx) : BitVec 4 := BitVec.ofFin r

/-- The word of an instruction, nibble by nibble from R63's list. -/
def encode : Instr → Word
  | .cls => 0x00E0#16
  | .jp nnn => 0x1#4 ++ nnn
  | .call nnn => 0x2#4 ++ nnn
  | .seImm x nn => 0x3#4 ++ regNibble x ++ nn
  | .sneImm x nn => 0x4#4 ++ regNibble x ++ nn
  | .seReg x y => 0x5#4 ++ regNibble x ++ regNibble y ++ 0x0#4
  | .ldImm x nn => 0x6#4 ++ regNibble x ++ nn
  | .addImm x nn => 0x7#4 ++ regNibble x ++ nn
  | .ldReg x y => 0x8#4 ++ regNibble x ++ regNibble y ++ 0x0#4
  | .andReg x y => 0x8#4 ++ regNibble x ++ regNibble y ++ 0x2#4
  | .addReg x y => 0x8#4 ++ regNibble x ++ regNibble y ++ 0x4#4
  | .sneReg x y => 0x9#4 ++ regNibble x ++ regNibble y ++ 0x0#4
  | .ldI nnn => 0xA#4 ++ nnn
  | .drw x y n => 0xD#4 ++ regNibble x ++ regNibble y ++ n
  | .addI x => 0xF#4 ++ regNibble x ++ 0x1E#8
  | .ldMem x => 0xF#4 ++ regNibble x ++ 0x65#8
  | .unrecognized raw => raw

/-- The bytes of an instruction as memory holds them, high byte first (R42, R63). -/
def encodeBytes (i : Instr) : List Byte := [highByte (encode i), lowByte (encode i)]

/-- An instruction's word from its table numbering: its low `nbits` bits, every bit above them 0. -/
def tableWord (nbits w : Nat) : Word := BitVec.ofNat 16 (w % 2 ^ nbits)

/-- The instruction the decoder reads from a word numbered as spec/opcode_table.json numbers it. -/
def decodeTableWord (nbits w : Nat) : Option Instr :=
  match decodeBytes [highByte (tableWord nbits w), lowByte (tableWord nbits w)] with
  | .ok (i, _) => some i
  | .error _ => none

/-! ### The spec's assembly syntax (R61, R62): it adds no meaning -/

/-- A hexadecimal digit. -/
def hexDigit (n : Nat) : Char := "0123456789ABCDEF".toList.getD n '0'

/-- The last `digits` hexadecimal digits of a number. -/
def hexDigits : Nat → Nat → List Char
  | 0, _ => []
  | d + 1, v => hexDigits d (v / 16) ++ [hexDigit (v % 16)]

/-- A number with the prefix 0x (R61). -/
def hexText (digits v : Nat) : String := "0x" ++ String.ofList (hexDigits digits v)

/-- V0..VF (R13, R61). -/
def regText (r : RegIx) : String := "V" ++ String.ofList (hexDigits 1 r.val)

/-- An instruction in R61's mnemonic form; an unrecognized word as `.word`. -/
def Instr.asm : Instr → String
  | .cls => "CLS"
  | .jp nnn => "JP " ++ hexText 3 nnn.toNat
  | .call nnn => "CALL " ++ hexText 3 nnn.toNat
  | .seImm x nn => "SE " ++ regText x ++ ", " ++ hexText 2 nn.toNat
  | .sneImm x nn => "SNE " ++ regText x ++ ", " ++ hexText 2 nn.toNat
  | .seReg x y => "SE " ++ regText x ++ ", " ++ regText y
  | .ldImm x nn => "LD " ++ regText x ++ ", " ++ hexText 2 nn.toNat
  | .addImm x nn => "ADD " ++ regText x ++ ", " ++ hexText 2 nn.toNat
  | .ldReg x y => "LD " ++ regText x ++ ", " ++ regText y
  | .andReg x y => "AND " ++ regText x ++ ", " ++ regText y
  | .addReg x y => "ADD " ++ regText x ++ ", " ++ regText y
  | .sneReg x y => "SNE " ++ regText x ++ ", " ++ regText y
  | .ldI nnn => "LD I, " ++ hexText 3 nnn.toNat
  | .drw x y n => "DRW " ++ regText x ++ ", " ++ regText y ++ ", " ++ toString n.toNat
  | .addI x => "ADD I, " ++ regText x
  | .ldMem x => "LD " ++ regText x ++ ", [I]"
  | .unrecognized raw => ".word " ++ hexText 4 raw.toNat

end Sys2Proof
end

