-- ==== Sys2Proof/Config.lean ====
section
/-! DEFINITION. The sizes the spec fixes (00_scope.md R5), the four named parameters of the model (R6), and the
values the spec leaves OPEN, as constants with no body: nothing in Lean can evaluate them. -/

namespace Sys2Proof

namespace Config

/-- MEM_SIZE (R5): addresses 0x000..0xFFF. -/
abbrev memSize : Nat := 4096

/-- FONT_BASE (R5). -/
abbrev fontBase : Nat := 0x050

/-- FONT_SIZE (R5): 16 glyphs of 5 bytes. -/
abbrev fontSize : Nat := 80

/-- PROGRAM_BASE (R5), the initial pc (R17). -/
abbrev programBase : Nat := 0x200

/-- MAX_ROM (R5), the largest ROM construction accepts (R117). -/
abbrev maxRom : Nat := 3584

/-- WIDTH × HEIGHT (R5): the number of display cells. -/
abbrev cells : Nat := 2048

end Config

/-- DRAW_BOUNDS (R6, R90): what becomes of a sprite pixel beyond column 63 or row 31. -/
inductive DrawBounds where
  | wrap
  | clip
deriving DecidableEq, Repr

/-- The four named parameters of R6. They are fixed at construction: no step changes them. -/
structure Params where
  /-- IPF: the dispatch cycles of one frame (R25). 0 is allowed (D14). -/
  ipf : Nat
  /-- DRAW_BOUNDS (R90, D7). -/
  drawBounds : DrawBounds
  /-- FONT: the 80 bytes that construction places at 0x050 (R37, D15). -/
  font : Vector Byte 80
  /-- PIXEL_ON: the output word of a lit cell (R110, D16); not 0, see `Params.wf`. -/
  pixelOn : Pixel
deriving DecidableEq, Repr

/-- PIXEL_ON is "a 32-bit word, not 0" (R6). The other three parameters have no side condition. -/
abbrev Params.wf (p : Params) : Prop := p.pixelOn ≠ 0#32

namespace Config

/-- IPF of the reset state: OPEN in the spec (D14), so a free value. DESIGN CHOICE, log 5. Safe. -/
opaque ipf : Nat

/-- PIXEL_ON of the reset state less one: OPEN in the spec (D16), so a free value. DESIGN CHOICE, log 6. Safe. -/
opaque pixelOnLessOne : Fin 4294967295

/-- PIXEL_ON of the reset state: any 32-bit word but 0 (R6, D16). -/
def pixelOn : Pixel := BitVec.ofNat 32 (pixelOnLessOne.val + 1)

/-- KEYS at construction: unspecified (R24, D20, U9), so a free value. DESIGN CHOICE, log 9. Safe. -/
opaque keys : Vector Bool 16

end Config

end Sys2Proof
end

