-- ==== Sys2Proof/Machine/Defaults.lean ====
section
/-! DEFINITION. The spec's defaults for two of R6's parameters, DRAW_BOUNDS and FONT. The reset state uses them;
no instruction's meaning does: a meaning reads the parameters of the state it runs in. -/

namespace Sys2Proof.Machine

/-- The default of DRAW_BOUNDS (R6, D7): the spec's own choice. Log 7: unsafe for a claim about the reset state alone. -/
def defaultDrawBounds : DrawBounds := .wrap

/-- The glyphs 0 to 7 of the default FONT (R37), five rows each, top row first. -/
def glyphsLow : List Byte :=
  [0xF0, 0x90, 0x90, 0x90, 0xF0] ++ [0x20, 0x60, 0x20, 0x20, 0x70] ++
  [0xF0, 0x10, 0xF0, 0x80, 0xF0] ++ [0xF0, 0x10, 0xF0, 0x10, 0xF0] ++
  [0x90, 0x90, 0xF0, 0x10, 0x10] ++ [0xF0, 0x80, 0xF0, 0x10, 0xF0] ++
  [0xF0, 0x80, 0xF0, 0x90, 0xF0] ++ [0xF0, 0x10, 0x20, 0x40, 0x40]

/-- The glyphs 8 to F of the default FONT (R37). -/
def glyphsHigh : List Byte :=
  [0xF0, 0x90, 0xF0, 0x90, 0xF0] ++ [0xF0, 0x90, 0xF0, 0x10, 0xF0] ++
  [0xF0, 0x90, 0xF0, 0x90, 0x90] ++ [0xE0, 0x90, 0xE0, 0x90, 0xE0] ++
  [0xF0, 0x80, 0x80, 0x80, 0xF0] ++ [0xE0, 0x90, 0x90, 0x90, 0xE0] ++
  [0xF0, 0x80, 0xF0, 0x80, 0xF0] ++ [0xF0, 0x80, 0xF0, 0x80, 0x80]

/-- The default of FONT (R37, D15): the standard CHIP-8 glyphs, from general knowledge. PRESUMED, log 8: unsafe for a
claim that reads the font of the reset state. -/
def defaultFont : Vector Byte 80 := ⟨(glyphsLow ++ glyphsHigh).toArray, by decide⟩

end Sys2Proof.Machine
end

