-- ==== Sys2Proof/Machine/State.lean ====
section
/-! DEFINITION. The whole state of the CORE (10_state.md R34), the reasons a step can stop, and the state after
construction from the empty ROM. -/

namespace Sys2Proof.Machine

/-- Memory: the cells that differ from what construction leaves at an unlisted address, addresses strictly rising.
`Memory.wf` in Machine/Ops.lean states the form. -/
abbrev Memory := List Host.Cell

/-- The display buffer, a grid of WIDTH × HEIGHT cells (R23): `d[r][c]` is the cell of column c and row r. -/
abbrev Disp := Vector (Vector Bool 64) 32

/-- The grid with every cell off (R34, R86). -/
def clearDisp : Disp := Vector.replicate 32 (Vector.replicate 64 false)

/-- R96's four fault codes. -/
inductive FaultCode where
  /-- Code 1, raised by the fetch (R65). -/
  | fetchOutOfRange
  /-- Code 2, raised by FX65 (R85). -/
  | loadOutOfRange
  /-- Code 3, raised by DXYN (R88). -/
  | spriteOutOfRange
  /-- Code 4, raised by 2NNN (R73). -/
  | stackOverflow
deriving DecidableEq, Repr

/-- The fault record of R29: which fault, the pc of the faulting cycle, and the raw word (0 for a fetch fault). -/
structure FaultRecord where
  code : FaultCode
  addr : Word
  opcode : Word
deriving DecidableEq, Repr

/-- The state vector of R34, with the parameters of R6 and the frame driver's cycle count of R28. -/
structure State where
  /-- MEM (R31, R35). -/
  mem : Memory
  /-- V[0]..V[15]; V[15] is VF (R13, R14). -/
  v : Vector Byte 16
  /-- The index register I (R16). -/
  i : Word
  /-- The program counter (R17). -/
  pc : Word
  /-- STACK[0]..STACK[15] (R19). -/
  stack : Vector Word 16
  /-- SP, 0..16 (R20, C4). -/
  sp : Fin 17
  /-- The delay timer (R21). -/
  dt : Byte
  /-- The sound timer (R22). -/
  st : Byte
  /-- DISP: 32 rows of 64 cells; true is on. DISP[k] of R23 is `readCell` in Machine/Ops.lean. -/
  disp : Disp
  /-- KEYS, the host's input (R24). -/
  keys : Vector Bool 16
  /-- IPF, DRAW_BOUNDS, FONT and PIXEL_ON (R6, R25), fixed at construction (log 4). -/
  params : Params
  /-- FAULT (R29). -/
  fault : Option FaultRecord
  /-- REPORT, oldest first (R30). -/
  report : List Word
  /-- The dispatch cycles of the present frame still to run; 0 between frames (R28, log 3). -/
  cyclesLeft : Nat
deriving DecidableEq, Repr

/-- What stops the machine without a next state. An execution-time fault of R96 is not one: the spec gives its whole
effect (R97, R98), so it is a next state that records it (log 1). -/
inductive Fault where
  /-- Raised by `construct` alone, for a ROM over 3584 bytes: no engine state is produced (R100, R117, D27). Safe:
  the spec says the same. No step raises it. -/
  | sizeViolation
deriving DecidableEq, Repr

/-- No meaning for the instruction. -/
inductive Refusal where
  /-- Raised by an arm of `exec` that has no meaning yet; no arm of this model raises it. Safe: the run stops. -/
  | notModelled (mnemonic : String)
deriving DecidableEq, Repr

/-- The parameters of the reset state: IPF and PIXEL_ON are OPEN (logs 5, 6), DRAW_BOUNDS and FONT are the spec's
defaults (logs 7, 8). -/
def resetParams : Params where
  ipf := Config.ipf
  drawBounds := defaultDrawBounds
  font := defaultFont
  pixelOn := Config.pixelOn

/-- R34's column "value after construction", for the empty ROM and the parameters `resetParams`. -/
def State.reset : State where
  mem := []
  v := Vector.replicate 16 0#8
  i := 0#16
  pc := 0x200#16
  stack := Vector.replicate 16 0#16
  sp := 0
  dt := 0#8
  st := 0#8
  disp := clearDisp
  keys := Config.keys
  params := resetParams
  fault := none
  report := []
  cyclesLeft := 0

end Sys2Proof.Machine
end

