-- ==== Sys2Proof/Machine/Ops.lean ====
section
/-! DEFINITION. The named operations over memory, registers, pc, stack and report that the meanings share, the opcode
fetch, and taking a fault. -/

namespace Sys2Proof.Machine

/-- The answer of a meaning and of a step. -/
abbrev Result := Host.Outcome State Fault Refusal

/-! ### Memory -/

/-- What an address that no cell lists reads as: what construction from the empty ROM leaves there (R34, R36): the
font at 0x050..0x09F, 0 elsewhere. -/
def Memory.unlisted (font : Vector Byte 80) (a : Nat) : Byte :=
  if h : Config.fontBase ≤ a ∧ a < Config.fontBase + Config.fontSize then
    font[a - Config.fontBase]'(by simp only [Config.fontBase, Config.fontSize] at *; omega)
  else 0#8

/-- MEM[a] (R39, after the range check). -/
def Memory.read (font : Vector Byte 80) : Memory → Nat → Byte
  | [], a => Memory.unlisted font a
  | (k, b) :: m, a => if k = a then b else Memory.read font m a

/-- MEM[a] <- b. Only construction writes memory (R40). A cell equal to what an unlisted address reads as is not kept. -/
def Memory.write (font : Vector Byte 80) : Memory → Nat → Byte → Memory
  | [], a, b => if b = Memory.unlisted font a then [] else [(a, b)]
  | (k, c) :: m, a, b =>
    if a < k then
      if b = Memory.unlisted font a then (k, c) :: m else (a, b) :: (k, c) :: m
    else if a = k then
      if b = Memory.unlisted font a then m else (a, b) :: m
    else (k, c) :: Memory.write font m a b

/-- Addresses rise strictly from the one before. -/
def Memory.rising : Memory → Bool
  | [] => true
  | c :: m => m.all (fun d => c.1 < d.1) && Memory.rising m

/-- The canonical form: addresses strictly rising, all of them existing cells (R35), none listed with what it reads as
unlisted. Equal memories are then equal lists. -/
def Memory.wf (font : Vector Byte 80) (m : Memory) : Bool :=
  Memory.rising m && m.all (fun c => c.1 < Config.memSize && c.2 != Memory.unlisted font c.1)

/-- MEM[a] of a state. It stands for a cell only below 4096: every access checks that first (R39). -/
def State.byte (s : State) (a : Nat) : Byte := Memory.read s.params.font s.mem a

/-- MEM[a] <- b, for `State.withFetchWord`: no instruction writes memory (R40). -/
def State.writeByte (a : Nat) (b : Byte) (s : State) : State :=
  { s with mem := Memory.write s.params.font s.mem a b }

/-- R39's range check: the address is computed as an exact integer and never reduced (D3, D4, log 17). -/
def inRange (a : Nat) : Bool := a < Config.memSize

/-! ### Fetch and pc -/

/-- The fetch of R65 at A = pc: both bytes are checked before either is used; none is FetchOutOfRange. -/
def fetch (s : State) : Option Word :=
  if inRange (s.pc.toNat + 1) then some (wordOfBytes (s.byte s.pc.toNat) (s.byte (s.pc.toNat + 1))) else none

/-- The advance of pc by 2 before dispatch (R66), modulo 2^16 (D25). -/
def advancePc (s : State) : State := { s with pc := s.pc + 2#16 }

/-- The further +2 of a skip (R71). -/
def skipNext (s : State) : State := { s with pc := s.pc + 2#16 }

/-- pc <- target (R71). -/
def jumpTo (target : Word) (s : State) : State := { s with pc := target }

/-- A, the address the executing instruction was fetched from: pc holds A + 2 while it executes (R66, R122). -/
def instrAddr (s : State) : Word := s.pc - 2#16

/-! ### Registers -/

/-- V[r] (R9, R13). -/
def State.readV (s : State) (r : RegIx) : Byte := s.v[r]

/-- V[r] <- b (R9, R13). -/
def State.writeV (r : RegIx) (b : Byte) (s : State) : State := { s with v := s.v.set r b }

/-- I <- w (R9, R16). -/
def State.writeI (w : Word) (s : State) : State := { s with i := w }

/-- V[0], .., V[n-1] from the n bytes at `base`, ascending (the loop of R85). -/
def loadFrom (s : State) (base : Nat) : Nat → Vector Byte 16 → Vector Byte 16
  | 0, v => v
  | n + 1, v => (loadFrom s base n v).setIfInBounds n (s.byte (base + n))

/-! ### Display cells -/

/-- DISP[k] (R23): k = r*64 + c is the cell of column c and row r. -/
def readCell (d : Disp) (k : Fin 2048) : Bool := (d[k.val / 64]'(by omega))[k.val % 64]'(by omega)

/-- DISP[k] <- on or off (R23). -/
def writeCell (d : Disp) (k : Fin 2048) (on : Bool) : Disp :=
  d.set (k.val / 64) ((d[k.val / 64]'(by omega)).set (k.val % 64) on (by omega)) (by omega)

/-! ### Call stack and report -/

/-- STACK[SP] <- w; SP <- SP + 1 (R73): none when SP = 16, where nothing is written. -/
def State.push (w : Word) (s : State) : Option State :=
  if h : s.sp.val < 16 then
    some { s with stack := s.stack.set s.sp.val w h, sp := ⟨s.sp.val + 1, by omega⟩ }
  else none

/-- report(raw): append the raw opcode to REPORT (R101, D17). -/
def reportWord (raw : Word) (s : State) : State := { s with report := s.report ++ [raw] }

/-! ### Taking a fault -/

/-- The code's number, the spec's label (R96, D29). -/
def FaultCode.number : FaultCode → Nat
  | .fetchOutOfRange => 1
  | .loadOutOfRange => 2
  | .spriteOutOfRange => 3
  | .stackOverflow => 4

/-- A fault at A with the raw word `op` (R97): FAULT <- (code, A, op), pc <- A, nothing else. The frame driver
returns (R108), so no frame is in progress (log 3). There is no return from a fault (R98). -/
def takeFault (code : FaultCode) (a op : Word) (s : State) : State :=
  { s with fault := some ⟨code, a, op⟩, pc := a, cyclesLeft := 0 }

/-- `raise` in the rule of an executing instruction: its address is pc - 2, its raw word the instruction's own
(R97, log 13). -/
def raiseFault (code : FaultCode) (i : Instr) (s : State) : Result :=
  .next (takeFault code (instrAddr s) (encode i) s)

end Sys2Proof.Machine
end

