-- ==== Sys2Proof/Machine/Construct.lean ====
section
/-! DEFINITION. Construction, the CORE's only reset (70_reset_and_hazards.md R116 to R118). -/

namespace Sys2Proof.Machine

/-- MEM[a + k] <- rom[k] for every byte of the ROM, in order (R38, R118). -/
def writeRom (font : Vector Byte 80) : Nat → List Byte → Memory → Memory
  | _, [], m => m
  | a, b :: bs, m => writeRom font (a + 1) bs (Memory.write font m a b)

/-- The state R118 builds. The memory that lists nothing is the zero-filled memory with the font in place. -/
def constructed (p : Params) (keys : Vector Bool 16) (rom : List Byte) : State where
  mem := writeRom p.font Config.programBase rom []
  v := Vector.replicate 16 0#8
  i := 0#16
  pc := BitVec.ofNat 16 Config.programBase
  stack := Vector.replicate 16 0#16
  sp := 0
  dt := 0#8
  st := 0#8
  disp := clearDisp
  keys := keys
  params := p
  fault := none
  report := []
  cyclesLeft := 0

/-- construct(rom, ipf) (R116): the size check, then the fresh state (R117, R118). `p` holds ipf and the other
parameters of R6; `keys` is what the host drives on the input port, which construction does not reset (R118). -/
def construct (p : Params) (keys : Vector Bool 16) (rom : List Byte) : Result :=
  if rom.length > Config.maxRom then .fault .sizeViolation else .next (constructed p keys rom)

end Sys2Proof.Machine
end

