-- ==== Sys2Proof/Machine/Flags.lean ====
section
/-! DEFINITION. The flag register: VF is written as a flag by 8XY4 and DXYN alone (10_state.md R14). -/

namespace Sys2Proof.Machine

/-- V[15], VF (R14). -/
abbrev flagReg : RegIx := 15

/-- 1 when the condition holds, 0 otherwise (R82, R92). -/
def flagValue (c : Bool) : Byte := if c then 1#8 else 0#8

/-- VF <- the flag (R82, R92). -/
def State.writeFlag (c : Bool) (s : State) : State := s.writeV flagReg (flagValue c)

/-- The exact sum of two bytes, 0..510 (R82). -/
def exactSum (a b : Byte) : Nat := a.toNat + b.toNat

/-- The carry of 8XY4: the exact sum exceeds 255 (R82). -/
def carryOf (a b : Byte) : Bool := decide (exactSum a b > 255)

/-- The low 8 bits of the exact sum (R79, R82). -/
def wrappedSum (a b : Byte) : Byte := BitVec.ofNat 8 (exactSum a b)

end Sys2Proof.Machine
end

