-- ==== Sys2Proof/Machine/Operands.lean ====
section
/-! DEFINITION. The operand forms: zero-extended immediates (30_encoding.md R55), and the one addressing mode, I plus
an element offset (43_index_load.md, 20_memory.md R39). -/

namespace Sys2Proof.Machine

/-- zext_16(NNN), the value written to pc or I (R55). -/
def addrOperand (nnn : Addr12) : Word := nnn.setWidth 16

/-- zext_16(V[r]), the operand of FX1E (R84). -/
def State.wordOperand (s : State) (r : RegIx) : Word := (s.readV r).setWidth 16

/-- I + k as an exact integer (D4). -/
def State.elemAddr (s : State) (k : Nat) : Nat := s.i.toNat + k

/-- The height h = N of a sprite, 0..15 (R55, R87). -/
def spriteHeight (n : BitVec 4) : Nat := n.toNat

/-- A coordinate of a sprite's origin, V[r] as 0..255 (R87). -/
def State.coord (s : State) (r : RegIx) : Nat := (s.readV r).toNat

end Sys2Proof.Machine
end

