-- ==== Sys2Proof/Machine/Alu.lean ====
section
/-! DEFINITION. Register loads and arithmetic (42_alu.md R78 to R82). pc stays at A + 2. -/

namespace Sys2Proof.Machine

/-- 6XNN (R78): V[X] <- NN. -/
def execLdImm (x : RegIx) (nn : Byte) (s : State) : Result := .next (s.writeV x nn)

/-- 7XNN (R79): V[X] <- (V[X] + NN) mod 256; no flag. With X = 15, VF is the destination (D23, log 22). -/
def execAddImm (x : RegIx) (nn : Byte) (s : State) : Result := .next (s.writeV x (wrappedSum (s.readV x) nn))

/-- 8XY0 (R80): V[X] <- V[Y]. -/
def execLdReg (x y : RegIx) (s : State) : Result := .next (s.writeV x (s.readV y))

/-- 8XY2 (R81): V[X] <- V[X] & V[Y]. -/
def execAndReg (x y : RegIx) (s : State) : Result := .next (s.writeV x (s.readV x &&& s.readV y))

/-- 8XY4 (R82): both operands are read, then V[X] <- the low byte of the sum, then VF <- the carry. With X = 15 the
flag write comes last (R82, R123). -/
def execAddReg (x y : RegIx) (s : State) : Result :=
  .next ((s.writeV x (wrappedSum (s.readV x) (s.readV y))).writeFlag (carryOf (s.readV x) (s.readV y)))

end Sys2Proof.Machine
end

