-- ==== Sys2Proof/Machine/Control.lean ====
section
/-! DEFINITION. Jump, call and skips (41_control.md R72 to R77). On entry pc = A + 2 (R66). -/

namespace Sys2Proof.Machine

/-- A skip adds a further 2 to pc when its condition holds (R71). -/
def skipIf (c : Bool) (s : State) : State := if c then skipNext s else s

/-- 1NNN (R72): pc <- zext_16(NNN). -/
def execJp (nnn : Addr12) (s : State) : Result := .next (jumpTo (addrOperand nnn) s)

/-- 2NNN (R73): push pc, which is A + 2, and jump; StackOverflow when SP = 16 (D6, log 19). -/
def execCall (nnn : Addr12) (s : State) : Result :=
  match s.push s.pc with
  | some t => .next (jumpTo (addrOperand nnn) t)
  | none => raiseFault .stackOverflow (.call nnn) s

/-- 3XNN (R74): skip if V[X] = NN. -/
def execSeImm (x : RegIx) (nn : Byte) (s : State) : Result := .next (skipIf (s.readV x == nn) s)

/-- 4XNN (R75): skip if V[X] ≠ NN. -/
def execSneImm (x : RegIx) (nn : Byte) (s : State) : Result := .next (skipIf (s.readV x != nn) s)

/-- 5XY0 (R76): skip if V[X] = V[Y]. -/
def execSeReg (x y : RegIx) (s : State) : Result := .next (skipIf (s.readV x == s.readV y) s)

/-- 9XY0 (R77): skip if V[X] ≠ V[Y]. -/
def execSneReg (x y : RegIx) (s : State) : Result := .next (skipIf (s.readV x != s.readV y) s)

end Sys2Proof.Machine
end

