-- ==== Sys2Proof/Machine/Display.lean ====
section
/-! DEFINITION. Clear and sprite draw with collision (44_display.md R86 to R93). pc stays at A + 2. -/

namespace Sys2Proof.Machine

/-- R90: the cell of display column `px` and row `py` under the policy DRAW_BOUNDS; none is "skip". -/
def cellOf (b : DrawBounds) (px py : Nat) : Option (Fin 2048) :=
  match b with
  | .wrap => some ⟨py % 32 * 64 + px % 64, by omega⟩
  | .clip => if h : px < 64 ∧ py < 32 then some ⟨py * 64 + px, by omega⟩ else none

/-- R89: column c of a sprite row is bit 7 - c of its byte, the most significant bit leftmost. -/
def rowBit (row : Byte) (c : Nat) : Bool := row.getLsbD (7 - c)

/-- R91: toggle a cell; turning a lit cell off is a collision. -/
def toggleCell (k : Fin 2048) (d : Disp × Bool) : Disp × Bool :=
  (writeCell d.1 k (!readCell d.1 k), d.2 || readCell d.1 k)

/-- One source pixel of a sprite row at (x, y): an on-bit toggles its destination (R89 to R91). -/
def plotPixel (b : DrawBounds) (x y : Nat) (row : Byte) (d : Disp × Bool) (c : Nat) : Disp × Bool :=
  if rowBit row c then
    match cellOf b (x + c) y with
    | some k => toggleCell k d
    | none => d
  else d

/-- The eight pixels of one sprite row, left to right (R87). -/
def plotRow (b : DrawBounds) (x y : Nat) (row : Byte) (d : Disp × Bool) : Disp × Bool :=
  (List.range 8).foldl (plotPixel b x y row) d

/-- The draw loop of R87: `h` rows from MEM[I] on, top row first, with the collision accumulator of R27. -/
def drawSprite (s : State) (x y h : Nat) : Disp × Bool :=
  (List.range h).foldl
    (fun d r => plotRow s.params.drawBounds x (y + r) (s.byte (s.elemAddr r)) d) (s.disp, false)

/-- 00E0 (R86): every cell off. -/
def execCls (s : State) : Result := .next { s with disp := clearDisp }

/-- R88's check: no byte is read when h = 0, else the last one's address must exist. -/
def spriteInRange (s : State) (h : Nat) : Bool := h == 0 || inRange (s.elemAddr (h - 1))

/-- DXYN (R87): XOR the sprite into DISP, then VF <- the collision; SpriteOutOfRange before any write. The coordinates
are read first, so X or Y = 15 uses the old VF (R92). -/
def execDrw (x y : RegIx) (n : BitVec 4) (s : State) : Result :=
  let h := spriteHeight n
  if spriteInRange s h then
    let d := drawSprite s (s.coord x) (s.coord y) h
    .next ({ s with disp := d.1 }.writeFlag d.2)
  else raiseFault .spriteOutOfRange (.drw x y n) s

end Sys2Proof.Machine
end

