-- ==== Sys2Proof/Machine/Index.lean ====
section
/-! DEFINITION. The index register and the memory load (43_index_load.md R83 to R85). pc stays at A + 2. -/

namespace Sys2Proof.Machine

/-- ANNN (R83): I <- zext_16(NNN). -/
def execLdI (nnn : Addr12) (s : State) : Result := .next (s.writeI (addrOperand nnn))

/-- FX1E (R84): I <- (I + V[X]) mod 2^16; no flag (D5, log 18). -/
def execAddI (x : RegIx) (s : State) : Result := .next (s.writeI (s.i + s.wordOperand x))

/-- FX65 (R85): V[0]..V[X] from MEM[I]..MEM[I+X], I unchanged; LoadOutOfRange, before any write, when the last address
does not exist. -/
def execLdMem (x : RegIx) (s : State) : Result :=
  if inRange (s.elemAddr x.val) then
    .next { s with v := loadFrom s s.i.toNat (x.val + 1) s.v }
  else raiseFault .loadOutOfRange (.ldMem x) s

end Sys2Proof.Machine
end

