-- ==== Sys2Proof/Machine/Unrecognized.lean ====
section
/-! DEFINITION. The reported no-op (40_cycle.md R69, R70): every word outside the sixteen patterns, 00EE among them. -/

namespace Sys2Proof.Machine

/-- Unrecognized(raw) (R69): report(raw); nothing else. -/
def execUnrecognized (raw : Word) (s : State) : Result := .next (reportWord raw s)

end Sys2Proof.Machine
end

