-- ==== Sys2Proof/Machine/Dispatch.lean ====
section
/-! DEFINITION. The dispatcher (40_cycle.md R68): one arm per variant. It runs on the state whose pc is already A + 2. -/

namespace Sys2Proof.Machine

/-- The rule of the one variant that classification selects (R68). -/
def exec (i : Instr) (s : State) : Host.Outcome State Fault Refusal :=
  match i with
  | .cls => Sys2Proof.Machine.execCls s
  | .jp nnn => Sys2Proof.Machine.execJp nnn s
  | .call nnn => Sys2Proof.Machine.execCall nnn s
  | .seImm x nn => Sys2Proof.Machine.execSeImm x nn s
  | .sneImm x nn => Sys2Proof.Machine.execSneImm x nn s
  | .seReg x y => Sys2Proof.Machine.execSeReg x y s
  | .ldImm x nn => Sys2Proof.Machine.execLdImm x nn s
  | .addImm x nn => Sys2Proof.Machine.execAddImm x nn s
  | .ldReg x y => Sys2Proof.Machine.execLdReg x y s
  | .andReg x y => Sys2Proof.Machine.execAndReg x y s
  | .addReg x y => Sys2Proof.Machine.execAddReg x y s
  | .sneReg x y => Sys2Proof.Machine.execSneReg x y s
  | .ldI nnn => Sys2Proof.Machine.execLdI nnn s
  | .drw x y n => Sys2Proof.Machine.execDrw x y n s
  | .addI x => Sys2Proof.Machine.execAddI x s
  | .ldMem x => Sys2Proof.Machine.execLdMem x s
  | .unrecognized raw => Sys2Proof.Machine.execUnrecognized raw s

end Sys2Proof.Machine
end

