-- ==== Sys2Proof/Machine/Frame.lean ====
section
/-! DEFINITION. The dispatch cycle (40_cycle.md R64), the timer countdown controller and the frame driver
(60_exceptions.md R105 to R109). -/

namespace Sys2Proof.Machine

/-- cycle() (R64): a halted engine does nothing (R98); otherwise fetch, advance, decode, dispatch. A fetch fault
records the opcode 0 (R96). -/
def cycle (s : State) : Result :=
  if s.fault.isSome then .next s
  else match fetch s with
    | none => .next (takeFault .fetchOutOfRange s.pc 0#16 s)
    | some op => exec (decode op) (advancePc s)

/-- One timer's countdown: by 1 while above 0, floored at 0 (R105, R106). -/
def countDown (t : Byte) : Byte := if t = 0#8 then 0#8 else t - 1#8

/-- Steps 1 and 2 of a frame (R108): DT, then ST. -/
def tickTimers (s : State) : State := { s with dt := countDown s.dt, st := countDown s.st }

/-- The start of a frame: the timers count down, and IPF dispatch cycles are to run (R108). -/
def beginFrame (s : State) : State := { tickTimers s with cyclesLeft := s.params.ipf }

/-- Step 3 of a frame (R108): `n` dispatch cycles, stopping at the first fault. -/
def runCycles : Nat → State → Result
  | 0, s => .next s
  | n + 1, s =>
    match cycle s with
    | .next t => if t.fault.isSome then .next t else runCycles n t
    | .fault r => .fault r
    | .refused r => .refused r

/-- frame() (R108), the text of the rule: nothing on a halted engine; else the timers, then IPF dispatch cycles. -/
def frame (s : State) : Result :=
  if s.fault.isSome then .next s else runCycles s.params.ipf (tickTimers s)

/-- The frame driver's count set to `n` (R28). -/
def State.withCyclesLeft (n : Nat) (s : State) : State := { s with cyclesLeft := n }

/-- One event of the frame driver (log 2): nothing on a halted engine; between frames, the start of the next frame;
inside a frame, its next dispatch cycle. -/
def driverStep (s : State) : Result :=
  if s.fault.isSome then .next s
  else match s.cyclesLeft with
    | 0 => .next (beginFrame s)
    | n + 1 => cycle (s.withCyclesLeft n)

end Sys2Proof.Machine
end

