-- ==== Sys2Proof/Machine/Ports.lean ====
section
/-! DEFINITION. The CORE's ports to the host (60_exceptions.md R110 to R112). The host uses them between frames only
(10_state.md R33). REPORT is read whole: it is the field `report`. -/

namespace Sys2Proof.Machine

/-- No frame is in progress: the host may act (R33, R121). -/
def State.betweenFrames (s : State) : Bool := s.cyclesLeft == 0

/-- Word k of the display output: 0 for off, PIXEL_ON for on (R110). -/
def displayWord (s : State) (k : Fin 2048) : Pixel := if readCell s.disp k then s.params.pixelOn else 0#32

/-- The display output as the host reads it: the whole array between frames, nothing during one (R110, D28). -/
def displayOutput (s : State) : Option (Vector Pixel 2048) :=
  if s.betweenFrames then some (Vector.ofFn (displayWord s)) else none

/-- The observability output as the host reads it between frames (R112). -/
def reportOutput (s : State) : Option (List Word) := if s.betweenFrames then some s.report else none

/-- The host's write of the key array, between frames (R111, D20); none during one. -/
def hostWriteKeys (keys : Vector Bool 16) (s : State) : Option State :=
  if s.betweenFrames then some { s with keys := keys } else none

end Sys2Proof.Machine
end

