-- ==== Sys2Proof/Machine/Step.lean ====
section
/-! DEFINITION. The machine's step, and placing an instruction where the next step runs it. -/

namespace Sys2Proof.Machine

/-- One step: one event of the frame driver, in Machine/Frame.lean (R64, R108, log 2). -/
def step (s : State) : Host.Outcome State Fault Refusal := driverStep s

/-- The state `s` with an instruction where `step` fetches the next one (log 12): its two bytes at pc, high byte first
(R42), pc put at 0x200 where no instruction can be fetched at it (R65), no fault recorded (R98), and one dispatch cycle
still to run where no frame is in progress (R108). -/
def State.withFetchWord (s : State) (nbits w : Nat) : State :=
  let a : Word := if inRange (s.pc.toNat + 1) then s.pc else BitVec.ofNat 16 Config.programBase
  let t := { s with pc := a, fault := none, cyclesLeft := if s.cyclesLeft = 0 then 1 else s.cyclesLeft }
  (t.writeByte a.toNat (highByte (tableWord nbits w))).writeByte (a.toNat + 1) (lowByte (tableWord nbits w))

end Sys2Proof.Machine
end

