-- ==== Sys2Proof/Safety.lean ====
section
/-! DEFINITION. The terms claims are stated in: the pieces of a state and which of them a step may change, a run that
has not faulted, and the invariant every step keeps. -/

namespace Sys2Proof.Machine

/-- Every piece a state is made of, one by one: the state vector of R34, the parameters of R6, the count of R28. -/
inductive Part where
  | v (r : RegIx)
  | i
  | pc
  | stackEntry (k : Fin 16)
  | sp
  | dt
  | st
  | cell (k : Fin 2048)
  | memory (a : Nat)
  | key (k : Fin 16)
  | params
  | fault
  | report
  | cyclesLeft
deriving DecidableEq, Repr

/-- The piece reads the same in both states. Memory is read byte by byte. -/
def Part.same (s t : State) : Part → Prop
  | .v r => t.readV r = s.readV r
  | .i => t.i = s.i
  | .pc => t.pc = s.pc
  | .stackEntry k => t.stack[k] = s.stack[k]
  | .sp => t.sp = s.sp
  | .dt => t.dt = s.dt
  | .st => t.st = s.st
  | .cell k => readCell t.disp k = readCell s.disp k
  | .memory a => t.byte a = s.byte a
  | .key k => t.keys[k] = s.keys[k]
  | .params => t.params = s.params
  | .fault => t.fault = s.fault
  | .report => t.report = s.report
  | .cyclesLeft => t.cyclesLeft = s.cyclesLeft

/-- A frame: going from `s` to `t`, no piece but those of `w` changed. -/
def ChangesOnly (w : Part → Prop) (s t : State) : Prop := ∀ p, ¬ w p → p.same s t

/-- A source pixel of display column `px` and row `py` reaches cell `k` under the policy DRAW_BOUNDS (R90). -/
def LandsOn : DrawBounds → Nat → Nat → Nat → Prop
  | .wrap, px, py, k => k = py % 32 * 64 + px % 64
  | .clip, px, py, k => px < 64 ∧ py < 32 ∧ k = py * 64 + px

/-- Some on-bit of the sprite of `h` rows at MEM[I], drawn at (x, y), reaches cell `k`: bit 7 - c of row r's byte is the
pixel of column x + c and row y + r (R88 to R90). -/
def SpriteCovers (s : State) (x y h : Nat) (k : Fin 2048) : Prop :=
  ∃ r c, r < h ∧ c < 8 ∧ (s.byte (s.i.toNat + r)).getLsbD (7 - c) = true ∧
    LandsOn s.params.drawBounds (x + c) (y + r) k.val

/-- A form's encoding (R57): its words are exactly those whose masked bits are `val`, and its operands are their fields. -/
def WordsOf (mask val : Word) (form : Fields → Instr) : Prop :=
  ∀ w : Word, w &&& mask = val ↔ decode w = form (fieldsOf w)

/-- One frame's countdown of a timer (R105, R106): by 1 while above 0, and never below 0. -/
def CountsDown (before after : Byte) : Prop :=
  (0 < before.toNat → after.toNat + 1 = before.toNat) ∧ (before.toNat = 0 → after.toNat = 0)

/-- The run has not faulted: the premise of every claim about a program (R98, D21). -/
def State.running (s : State) : Prop := s.fault = none

/-- A state with everything the step never reads put to one value: KEYS (R24), the STACK entries (R19), DT and ST but
for their own countdown (R107), and PIXEL_ON (R110). Two states with the same `readPart` differ in those alone. -/
def State.readPart (s : State) : State :=
  { s with keys := Vector.replicate 16 false, stack := Vector.replicate 16 0#16, dt := 0#8, st := 0#8,
           params := { s.params with pixelOn := 0#32 } }

/-- The V registers an instruction may write (R15); 8XY4 and DXYN write VF as the flag (R14). -/
def mayWriteV : Instr → RegIx → Prop
  | .cls, _ => False
  | .jp _, _ => False
  | .call _, _ => False
  | .seImm _ _, _ => False
  | .sneImm _ _, _ => False
  | .seReg _ _, _ => False
  | .ldImm x _, r => r = x
  | .addImm x _, r => r = x
  | .ldReg x _, r => r = x
  | .andReg x _, r => r = x
  | .addReg x _, r => r = x ∨ r = 15
  | .sneReg _ _, _ => False
  | .ldI _, _ => False
  | .drw _ _ _, r => r = 15
  | .addI _, _ => False
  | .ldMem x, r => r ≤ x
  | .unrecognized _, _ => False

/-- pc after an instruction that did not fault, from the state before its cycle, whose pc is A (R18). -/
def pcAfter (s : State) : Instr → Word
  | .cls => s.pc + 2#16
  | .jp nnn => nnn.setWidth 16
  | .call nnn => nnn.setWidth 16
  | .seImm x nn => if s.readV x = nn then s.pc + 4#16 else s.pc + 2#16
  | .sneImm x nn => if s.readV x ≠ nn then s.pc + 4#16 else s.pc + 2#16
  | .seReg x y => if s.readV x = s.readV y then s.pc + 4#16 else s.pc + 2#16
  | .ldImm _ _ => s.pc + 2#16
  | .addImm _ _ => s.pc + 2#16
  | .ldReg _ _ => s.pc + 2#16
  | .andReg _ _ => s.pc + 2#16
  | .addReg _ _ => s.pc + 2#16
  | .sneReg x y => if s.readV x ≠ s.readV y then s.pc + 4#16 else s.pc + 2#16
  | .ldI _ => s.pc + 2#16
  | .drw _ _ _ => s.pc + 2#16
  | .addI _ => s.pc + 2#16
  | .ldMem _ => s.pc + 2#16
  | .unrecognized _ => s.pc + 2#16

/-- The next step runs the instruction `i`: the engine is running, inside a frame, and the two bytes at pc are i's. -/
def State.runsNext (s : State) (i : Instr) : Prop :=
  s.fault = none ∧ 0 < s.cyclesLeft ∧ s.pc.toNat + 1 < 4096 ∧
    decode (wordOfBytes (s.byte s.pc.toNat) (s.byte (s.pc.toNat + 1))) = i

/-- What the fault record says holds of the halted state (R96): the condition that raised it, whose operands a precise
fault leaves as they were (R97). -/
def FaultRecord.holdsOf (s : State) (f : FaultRecord) : Prop :=
  match f.code with
  | .fetchOutOfRange => f.opcode = 0#16 ∧ 4096 ≤ f.addr.toNat + 1
  | .loadOutOfRange => ∃ x, decode f.opcode = .ldMem x ∧ 4096 ≤ s.i.toNat + x.val
  | .spriteOutOfRange => ∃ x y n, decode f.opcode = .drw x y n ∧ 0 < n.toNat ∧ 4096 ≤ s.i.toNat + n.toNat - 1
  | .stackOverflow => ∃ nnn, decode f.opcode = .call nnn ∧ s.sp.val = 16

/-- The invariant of the CORE: it holds after construction, and every step keeps it. -/
structure State.Inv (s : State) : Prop where
  /-- Memory is in canonical form, all of it existing cells (R35). -/
  memory : Memory.wf s.params.font s.mem = true
  /-- PIXEL_ON is not 0 (R6). -/
  pixelOn : s.params.wf
  /-- "pc never exceeds 0xFFF + 4": no instruction leaves it past 0x1002 (R17). -/
  pcBound : s.pc.toNat ≤ 0x1002
  /-- DT = ST = 0 at every point (R107). -/
  timers : s.dt = 0#8 ∧ s.st = 0#8
  /-- Entries not pushed yet are still 0 (R19, R34). -/
  stackFree : ∀ k : Fin 16, s.sp.val ≤ k.val → s.stack[k] = 0#16
  /-- A pushed entry is the address after a fetched call, A + 2 with A ≤ 0xFFE (R65, R73). -/
  stackUsed : ∀ k : Fin 16, k.val < s.sp.val → 2 ≤ s.stack[k].toNat ∧ s.stack[k].toNat ≤ 0x1000
  /-- REPORT holds unrecognized words only (R30, R69). -/
  reported : ∀ w ∈ s.report, isImplemented w = false
  /-- A frame never has more cycles left than the budget (R28, R108). -/
  budget : s.cyclesLeft ≤ s.params.ipf
  /-- A halted engine is outside any frame, at the faulting address, with the fault's condition still true (R97). -/
  halted : ∀ f, s.fault = some f → s.pc = f.addr ∧ s.cyclesLeft = 0 ∧ f.holdsOf s

end Sys2Proof.Machine
end

