-- ==== Sys2Proof/Certificates/Slice0/Obligations.lean ====
section
/-! DEFINITION. The statements for the provers, one `def Obligations.<Name> : Prop` each. OBLIGATIONS.json names the
rules each formalises. Where a clause rests on one of the spec's own decisions D<n>, or on a choice of the model, the
docstring names it. -/

open Sys2Proof Sys2Proof.Machine

/-! ### Construction and reset -/

/-- R117: a ROM over 3584 bytes fails with SizeViolation, any other constructs. -/
def Obligations.ConstructionFailsExactlyForAnOversizedRom : Prop :=
  ∀ (p : Params) (keys : Vector Bool 16) (rom : List Byte),
    (3584 < rom.length → construct p keys rom = .fault .sizeViolation) ∧
    (rom.length ≤ 3584 → ∃ t, construct p keys rom = .next t)

/-- R34, R118: every element of the state after construction, for every ROM that fits and every parameter. -/
def Obligations.ConstructionBuildsTheResetTable : Prop :=
  ∀ (p : Params) (keys : Vector Bool 16) (rom : List Byte), rom.length ≤ 3584 →
    ∃ t, construct p keys rom = .next t ∧
      (∀ a, a < 4096 → t.byte a =
        if hf : 0x050 ≤ a ∧ a ≤ 0x09F then p.font[a - 0x050]'(by omega)
        else if hr : 0x200 ≤ a ∧ a < 0x200 + rom.length then rom[a - 0x200]'(by omega)
        else 0#8) ∧
      (∀ r, t.readV r = 0#8) ∧ t.i = 0#16 ∧ t.pc = 0x200#16 ∧
      (∀ k : Fin 16, t.stack[k] = 0#16) ∧ t.sp.val = 0 ∧ t.dt = 0#8 ∧ t.st = 0#8 ∧
      (∀ k, readCell t.disp k = false) ∧ t.params = p ∧ t.keys = keys ∧ t.fault = none ∧ t.report = []

/-- The model's reset state (logs 5 to 9, 11) is construction from the empty ROM, outside any frame (log 3). -/
def Obligations.ResetStateIsConstructionFromTheEmptyRom : Prop :=
  construct resetParams Config.keys [] = .next State.reset ∧ State.reset.cyclesLeft = 0

/-- The invariant `State.Inv` holds at reset. -/
def Obligations.ResetStateMeetsTheInvariant : Prop := State.reset.Inv

/-- The invariant holds after every construction with a non-zero PIXEL_ON. -/
def Obligations.EveryConstructedStateMeetsTheInvariant : Prop :=
  ∀ (p : Params) (keys : Vector Bool 16) (rom : List Byte), p.wf → rom.length ≤ 3584 →
    ∃ t, construct p keys rom = .next t ∧ t.Inv

/-! ### Encoding -/

/-- Decode of encode is the instruction, for every well-formed instruction at every operand value. -/
def Obligations.DecodingAnEncodedInstructionGivesItBack : Prop :=
  ∀ i : Instr, i.wf = true → decode (encode i) = i

/-- Every word decodes to a well-formed instruction, and encodes back to itself: each word has one meaning. -/
def Obligations.EncodingADecodedWordGivesItBack : Prop :=
  ∀ w : Word, (decode w).wf = true ∧ encode (decode w) = w

/-- The classification by class, low nibble and low byte selects the row of R57's list whose mask and match pair the
word meets, and `unrecognized` exactly when it meets none (D11: every literal nibble must match). -/
def Obligations.ClassificationFollowsTheMaskAndMatchPairs : Prop :=
  ∀ w : Word,
    (∀ p ∈ patterns, w &&& p.mask = p.val ↔ (decode w).pattern = some p) ∧
    ((∀ p ∈ patterns, w &&& p.mask ≠ p.val) ↔ decode w = .unrecognized w)

/-- R53: the seven fields of a word, as numbers, and how they overlap. -/
def Obligations.FieldsAreTheBitsOfTheWord : Prop :=
  ∀ w : Word,
    (fieldsOf w).c.toNat = w.toNat / 4096 ∧ (fieldsOf w).x.val = w.toNat / 256 % 16 ∧
    (fieldsOf w).y.val = w.toNat / 16 % 16 ∧ (fieldsOf w).n.toNat = w.toNat % 16 ∧
    (fieldsOf w).nn.toNat = w.toNat % 256 ∧ (fieldsOf w).nnn.toNat = w.toNat % 4096 ∧ (fieldsOf w).raw = w ∧
    (fieldsOf w).nn.toNat = (fieldsOf w).y.val * 16 + (fieldsOf w).n.toNat ∧
    (fieldsOf w).nnn.toNat = (fieldsOf w).x.val * 256 + (fieldsOf w).nn.toNat

/-- R63's words (the spec's own syntax, D22), as numbers. -/
def Obligations.EncodingFollowsTheAssemblyWords : Prop :=
  ∀ (x y : RegIx) (n : BitVec 4) (nn : Byte) (nnn : Addr12),
    (encode .cls).toNat = 0x00E0 ∧
    (encode (.jp nnn)).toNat = 0x1000 + nnn.toNat ∧ (encode (.call nnn)).toNat = 0x2000 + nnn.toNat ∧
    (encode (.seImm x nn)).toNat = 0x3000 + x.val * 256 + nn.toNat ∧
    (encode (.sneImm x nn)).toNat = 0x4000 + x.val * 256 + nn.toNat ∧
    (encode (.seReg x y)).toNat = 0x5000 + x.val * 256 + y.val * 16 ∧
    (encode (.ldImm x nn)).toNat = 0x6000 + x.val * 256 + nn.toNat ∧
    (encode (.addImm x nn)).toNat = 0x7000 + x.val * 256 + nn.toNat ∧
    (encode (.ldReg x y)).toNat = 0x8000 + x.val * 256 + y.val * 16 ∧
    (encode (.andReg x y)).toNat = 0x8002 + x.val * 256 + y.val * 16 ∧
    (encode (.addReg x y)).toNat = 0x8004 + x.val * 256 + y.val * 16 ∧
    (encode (.sneReg x y)).toNat = 0x9000 + x.val * 256 + y.val * 16 ∧
    (encode (.ldI nnn)).toNat = 0xA000 + nnn.toNat ∧
    (encode (.drw x y n)).toNat = 0xD000 + x.val * 256 + y.val * 16 + n.toNat ∧
    (encode (.addI x)).toNat = 0xF01E + x.val * 256 ∧ (encode (.ldMem x)).toNat = 0xF065 + x.val * 256

/-- Words written out from the spec's encodings and examples decode to the instructions they stand for; three words that
miss a literal nibble, 00EE and 0000 are unrecognized. -/
def Obligations.SampleWordsDecodeAsTheSpecWritesThem : Prop :=
  decode 0b0000000011100000#16 = .cls ∧ decode 0x1234#16 = .jp 0x234#12 ∧ decode 0x2300#16 = .call 0x300#12 ∧
  decode 0x332A#16 = .seImm 3 0x2A#8 ∧ decode 0x5120#16 = .seReg 1 2 ∧ decode 0x6A42#16 = .ldImm 10 0x42#8 ∧
  decode 0x8124#16 = .addReg 1 2 ∧ decode 0xA050#16 = .ldI 0x050#12 ∧ decode 0xD012#16 = .drw 0 1 2#4 ∧
  decode 0xF21E#16 = .addI 2 ∧ decode 0xF565#16 = .ldMem 5 ∧
  decode 0x01E0#16 = .unrecognized 0x01E0#16 ∧ decode 0x5121#16 = .unrecognized 0x5121#16 ∧
  decode 0x8121#16 = .unrecognized 0x8121#16 ∧ decode 0x00EE#16 = .unrecognized 0x00EE#16 ∧
  decode 0x0000#16 = .unrecognized 0x0000#16

/-! ### The step, the cycle and the frame -/

/-- Inside a frame, a running engine's step dispatches the word whose high byte is at pc and whose low byte is at pc + 1
(big-endian: D1, log 15), with pc already advanced by 2 and one cycle of the frame spent (log 3). -/
def Obligations.StepRunsTheDecodedInstruction : Prop :=
  ∀ (s : State) (n : Nat), s.fault = none → s.cyclesLeft = n + 1 → s.pc.toNat + 1 < 4096 →
    ∃ w : Word, w.toNat = 256 * (s.byte s.pc.toNat).toNat + (s.byte (s.pc.toNat + 1)).toNat ∧
      step s = exec (decode w) { s with pc := s.pc + 2#16, cyclesLeft := n }

/-- `withFetchWord` places a word so that the very next step runs exactly its instruction (log 12). -/
def Obligations.WithFetchWordPlacesTheNextInstruction : Prop :=
  ∀ (s : State) (w : Nat), w < 65536 → Memory.wf s.params.font s.mem = true →
    step (s.withFetchWord 16 w) =
      exec (decode (BitVec.ofNat 16 w))
        { s.withFetchWord 16 w with
          pc := (s.withFetchWord 16 w).pc + 2#16, cyclesLeft := (s.withFetchWord 16 w).cyclesLeft - 1 }

/-- A fetch whose second byte does not exist faults: code FetchOutOfRange, address A, opcode 0, pc still A, nothing else
changed (the spec's own decisions D3, D12); the frame is over (log 3). -/
def Obligations.FetchPastMemoryFaultsPrecisely : Prop :=
  ∀ s : State, s.fault = none → 0 < s.cyclesLeft → 4096 ≤ s.pc.toNat + 1 →
    ∃ t, step s = .next t ∧ t.fault = some ⟨.fetchOutOfRange, s.pc, 0#16⟩ ∧ t.cyclesLeft = 0 ∧
      ChangesOnly (fun p => p = .fault ∨ p = .cyclesLeft) s t

/-- A halted engine does nothing in a step, a cycle or a whole frame, its timers included (the spec's own decision D12). -/
def Obligations.HaltedEngineNeverChanges : Prop :=
  ∀ s : State, s.fault ≠ none → step s = .next s ∧ cycle s = .next s ∧ frame s = .next s

/-- A whole frame, whatever its cycles do, takes 1 from each timer above 0 and leaves a timer at 0 (R105, R106). The
clause about a step between frames is the model's choice that a step is one event of the frame driver (log 2): that
step counts the timers down so, and nothing else of the state changes but the driver's own count (log 3). -/
def Obligations.EachFrameCountsBothTimersDownOnce : Prop :=
  ∀ s : State, s.fault = none →
    (s.cyclesLeft = 0 → ∃ t, step s = .next t ∧ CountsDown s.dt t.dt ∧ CountsDown s.st t.st ∧
      ChangesOnly (fun p => p = .dt ∨ p = .st ∨ p = .cyclesLeft) s t) ∧
    (∃ t, frame s = .next t ∧ CountsDown s.dt t.dt ∧ CountsDown s.st t.st)

/-- The start of a frame makes IPF dispatch cycles due (log 3), and a step inside a frame never touches a timer. -/
def Obligations.TimersMoveOnlyAtAFrameStart : Prop :=
  ∀ s : State, s.fault = none →
    (s.cyclesLeft = 0 → ∃ t, step s = .next t ∧ t.cyclesLeft = s.params.ipf) ∧
    (0 < s.cyclesLeft → ∃ t, step s = .next t ∧ t.dt = s.dt ∧ t.st = s.st ∧ t.cyclesLeft < s.cyclesLeft)

/-- The host's machine refines R108: from a state outside any frame, one step and then IPF steps are exactly `frame`,
the text of the rule, whatever the cycles do and wherever a fault cuts the frame short (log 2). -/
def Obligations.StepsOfAFrameAreTheFrameRule : Prop :=
  ∀ s : State, s.cyclesLeft = 0 → Sys2Proof.core.run (s.params.ipf + 1) s = frame s

/-- With IPF = 0 (allowed by the spec's own decision D14) a frame only moves the timers. -/
def Obligations.FrameWithoutBudgetOnlyMovesTimers : Prop :=
  ∀ s : State, s.params.ipf = 0 →
    ∃ t, frame s = .next t ∧ ChangesOnly (fun p => p = .dt ∨ p = .st) s t

/-- No step and no frame stops without a next state: a frame is bounded whatever its cycles do, and no word aborts the
run (a fault of R96 is a next state that records it, log 1). -/
def Obligations.EveryStepAndEveryFrameAnswersANextState : Prop :=
  ∀ s : State, (∃ t, step s = .next t) ∧ (∃ t, frame s = .next t)

/-! ### Control transfer -/

/-- R72: the words 1NNN; pc is the address, zero-extended; nothing else changes. -/
def Obligations.JumpSetsPcToItsAddress : Prop :=
  WordsOf 0xF000#16 0x1000#16 (fun f => .jp f.nnn) ∧
  ∀ (nnn : Addr12) (s : State),
    ∃ t, exec (.jp nnn) s = .next t ∧ t.pc.toNat = nnn.toNat ∧ ChangesOnly (· = .pc) s t

/-- 2NNN below a full stack: the advanced pc goes to STACK[SP], SP rises by 1, pc is the address; no other entry and
nothing else changes. -/
def Obligations.CallPushesTheAdvancedPcAndJumps : Prop :=
  ∀ (nnn : Addr12) (s : State) (k : Fin 16), s.sp.val = k.val →
    ∃ t, exec (.call nnn) s = .next t ∧ t.stack[k] = s.pc ∧ t.sp.val = s.sp.val + 1 ∧ t.pc.toNat = nnn.toNat ∧
      ChangesOnly (fun p => p = .stackEntry k ∨ p = .sp ∨ p = .pc) s t

/-- 2NNN with SP = 16 faults: code StackOverflow, the instruction's address (pc is 2 past it) and its word, and nothing
else changes (the spec's own decisions D6, D12); the frame is over (log 3). -/
def Obligations.CallOnAFullStackFaults : Prop :=
  ∀ (nnn : Addr12) (s : State), s.sp.val = 16 →
    ∃ t, exec (.call nnn) s = .next t ∧
      t.fault = some ⟨.stackOverflow, s.pc - 2#16, encode (.call nnn)⟩ ∧ t.pc = s.pc - 2#16 ∧ t.cyclesLeft = 0 ∧
      ChangesOnly (fun p => p = .fault ∨ p = .pc ∨ p = .cyclesLeft) s t

/-- R74 to R77: the words of the four skips; each adds 2 to the advanced pc when its condition holds, else leaves it, and
changes nothing else. -/
def Obligations.SkipsAddTwoExactlyWhenTheirConditionHolds : Prop :=
  WordsOf 0xF000#16 0x3000#16 (fun f => .seImm f.x f.nn) ∧ WordsOf 0xF000#16 0x4000#16 (fun f => .sneImm f.x f.nn) ∧
  WordsOf 0xF00F#16 0x5000#16 (fun f => .seReg f.x f.y) ∧ WordsOf 0xF00F#16 0x9000#16 (fun f => .sneReg f.x f.y) ∧
  ∀ (x y : RegIx) (nn : Byte) (s : State),
    (∃ t, exec (.seImm x nn) s = .next t ∧ ChangesOnly (· = .pc) s t ∧
      t.pc.toNat = if s.readV x = nn then (s.pc.toNat + 2) % 65536 else s.pc.toNat) ∧
    (∃ t, exec (.sneImm x nn) s = .next t ∧ ChangesOnly (· = .pc) s t ∧
      t.pc.toNat = if s.readV x ≠ nn then (s.pc.toNat + 2) % 65536 else s.pc.toNat) ∧
    (∃ t, exec (.seReg x y) s = .next t ∧ ChangesOnly (· = .pc) s t ∧
      t.pc.toNat = if s.readV x = s.readV y then (s.pc.toNat + 2) % 65536 else s.pc.toNat) ∧
    (∃ t, exec (.sneReg x y) s = .next t ∧ ChangesOnly (· = .pc) s t ∧
      t.pc.toNat = if s.readV x ≠ s.readV y then (s.pc.toNat + 2) % 65536 else s.pc.toNat)

/-! ### Register loads and arithmetic -/

/-- R78, R80, R81: the words 6XNN, 8XY0 and 8XY2, which write V[X] alone, VF only where X names it. -/
def Obligations.LoadCopyAndAndWriteOnlyTheirDestination : Prop :=
  WordsOf 0xF000#16 0x6000#16 (fun f => .ldImm f.x f.nn) ∧ WordsOf 0xF00F#16 0x8000#16 (fun f => .ldReg f.x f.y) ∧
  WordsOf 0xF00F#16 0x8002#16 (fun f => .andReg f.x f.y) ∧
  ∀ (x y : RegIx) (nn : Byte) (s : State),
    (∃ t, exec (.ldImm x nn) s = .next t ∧ t.readV x = nn ∧ ChangesOnly (· = .v x) s t) ∧
    (∃ t, exec (.ldReg x y) s = .next t ∧ t.readV x = s.readV y ∧ ChangesOnly (· = .v x) s t) ∧
    (∃ t, exec (.andReg x y) s = .next t ∧ t.readV x = s.readV x &&& s.readV y ∧ ChangesOnly (· = .v x) s t)

/-- 7XNN: the sum modulo 256 in V[X] and no flag anywhere; with X = 15 VF is the destination (the spec's own decision
D23, log 22). -/
def Obligations.AddImmediateWrapsAndWritesNoFlag : Prop :=
  ∀ (x : RegIx) (nn : Byte) (s : State),
    ∃ t, exec (.addImm x nn) s = .next t ∧ (t.readV x).toNat = ((s.readV x).toNat + nn.toNat) % 256 ∧
      ChangesOnly (· = .v x) s t

/-- R82: the words 8XY4; V[X] holds the sum modulo 256 and VF, written last, the carry, for all X and Y; with X = 15 VF
holds the carry. -/
def Obligations.AddRegistersWritesTheSumThenTheCarry : Prop :=
  WordsOf 0xF00F#16 0x8004#16 (fun f => .addReg f.x f.y) ∧
  ∀ (x y : RegIx) (s : State),
    ∃ t, exec (.addReg x y) s = .next t ∧
      (x ≠ 15 → (t.readV x).toNat = ((s.readV x).toNat + (s.readV y).toNat) % 256) ∧
      (t.readV 15).toNat = (if (s.readV x).toNat + (s.readV y).toNat > 255 then 1 else 0) ∧
      ChangesOnly (fun p => p = .v x ∨ p = .v 15) s t

/-! ### Index register and memory load -/

/-- R83: the words ANNN; I is the address, zero-extended; nothing else changes. -/
def Obligations.LoadIndexSetsI : Prop :=
  WordsOf 0xF000#16 0xA000#16 (fun f => .ldI f.nnn) ∧
  ∀ (nnn : Addr12) (s : State),
    ∃ t, exec (.ldI nnn) s = .next t ∧ t.i.toNat = nnn.toNat ∧ ChangesOnly (· = .i) s t

/-- FX1E: I + V[X], modulo 2^16 (the spec's own decision D5, log 18), VF unaffected. -/
def Obligations.AddToIndexWritesOnlyI : Prop :=
  ∀ (x : RegIx) (s : State),
    ∃ t, exec (.addI x) s = .next t ∧ t.i.toNat = (s.i.toNat + (s.readV x).toNat) % 65536 ∧
      ChangesOnly (· = .i) s t

/-- FX65 where every address exists (exact addresses: the spec's own decision D4): V[k] = MEM[I + k] for every k up to
X, I and everything else unchanged. -/
def Obligations.LoadRegistersCopiesFromMemory : Prop :=
  ∀ (x : RegIx) (s : State), s.i.toNat + x.val < 4096 →
    ∃ t, exec (.ldMem x) s = .next t ∧ (∀ k : RegIx, k ≤ x → t.readV k = s.byte (s.i.toNat + k.val)) ∧
      ChangesOnly (fun p => ∃ k : RegIx, k ≤ x ∧ p = .v k) s t

/-- FX65 past the last cell faults before any write: code LoadOutOfRange, the instruction's address and word (the
spec's own decisions D3, D4, D12); the frame is over (log 3). -/
def Obligations.LoadPastMemoryFaults : Prop :=
  ∀ (x : RegIx) (s : State), 4096 ≤ s.i.toNat + x.val →
    ∃ t, exec (.ldMem x) s = .next t ∧
      t.fault = some ⟨.loadOutOfRange, s.pc - 2#16, encode (.ldMem x)⟩ ∧ t.pc = s.pc - 2#16 ∧ t.cyclesLeft = 0 ∧
      ChangesOnly (fun p => p = .fault ∨ p = .pc ∨ p = .cyclesLeft) s t

/-! ### Display -/

/-- 00E0: every cell is off, whatever it was; nothing else changes. -/
def Obligations.ClearTurnsEveryCellOff : Prop :=
  ∀ s : State, ∃ t, exec .cls s = .next t ∧ (∀ k, readCell t.disp k = false) ∧
    ChangesOnly (fun p => ∃ k, p = .cell k) s t

/-- DXYN where every sprite byte exists, under either policy DRAW_BOUNDS (the spec's own decisions D4, D7, D9, D10):
exactly the cells the sprite covers are toggled, VF is 1 if one of them was lit and 0 otherwise, and nothing else
changes. -/
def Obligations.DrawXorsTheSpriteIntoTheDisplay : Prop :=
  ∀ (x y : RegIx) (n : BitVec 4) (s : State), (n.toNat = 0 ∨ s.i.toNat + n.toNat - 1 < 4096) →
    ∃ t, exec (.drw x y n) s = .next t ∧
      (∀ k, SpriteCovers s (s.readV x).toNat (s.readV y).toNat n.toNat k →
        readCell t.disp k = !readCell s.disp k) ∧
      (∀ k, ¬ SpriteCovers s (s.readV x).toNat (s.readV y).toNat n.toNat k →
        readCell t.disp k = readCell s.disp k) ∧
      ((∃ k, SpriteCovers s (s.readV x).toNat (s.readV y).toNat n.toNat k ∧ readCell s.disp k = true) →
        t.readV 15 = 1#8) ∧
      ((∀ k, SpriteCovers s (s.readV x).toNat (s.readV y).toNat n.toNat k → readCell s.disp k = false) →
        t.readV 15 = 0#8) ∧
      ChangesOnly (fun p => p = .v 15 ∨ ∃ k, p = .cell k) s t

/-- A sprite wholly on the grid, drawn by XOR (the spec's own decision D8). Row r's byte has its most significant bit
leftmost; an on-bit toggles cell (y + r)*64 + (x + c), an off-bit leaves it, and an on-bit on a lit cell gives VF = 1. -/
def Obligations.OnGridPixelsToggleAndReportCollisions : Prop :=
  ∀ (x y : RegIx) (n : BitVec 4) (s : State), s.i.toNat + n.toNat ≤ 4096 →
    (s.readV x).toNat + 8 ≤ 64 → (s.readV y).toNat + n.toNat ≤ 32 →
    ∃ t, exec (.drw x y n) s = .next t ∧
      ∀ (r c : Nat) (k : Fin 2048), r < n.toNat → c < 8 →
        k.val = ((s.readV y).toNat + r) * 64 + ((s.readV x).toNat + c) →
        ((s.byte (s.i.toNat + r)).toNat / 2 ^ (7 - c) % 2 = 1 →
          readCell t.disp k = (!readCell s.disp k) ∧ (readCell s.disp k = true → t.readV 15 = 1#8)) ∧
        ((s.byte (s.i.toNat + r)).toNat / 2 ^ (7 - c) % 2 = 0 → readCell t.disp k = readCell s.disp k)

/-- DXY0 never faults, draws nothing and writes VF = 0, wherever I points (the spec's own decision D10). -/
def Obligations.EmptySpriteOnlyClearsTheFlag : Prop :=
  ∀ (x y : RegIx) (s : State),
    ∃ t, exec (.drw x y 0#4) s = .next t ∧ t.readV 15 = 0#8 ∧ ChangesOnly (· = .v 15) s t

/-- DXYN past the last cell faults before any write: code SpriteOutOfRange, the instruction's address and word (the
spec's own decisions D3, D4, D12); the frame is over (log 3). -/
def Obligations.DrawPastMemoryFaults : Prop :=
  ∀ (x y : RegIx) (n : BitVec 4) (s : State), 0 < n.toNat → 4096 ≤ s.i.toNat + n.toNat - 1 →
    ∃ t, exec (.drw x y n) s = .next t ∧
      t.fault = some ⟨.spriteOutOfRange, s.pc - 2#16, encode (.drw x y n)⟩ ∧ t.pc = s.pc - 2#16 ∧
      t.cyclesLeft = 0 ∧ ChangesOnly (fun p => p = .fault ∨ p = .pc ∨ p = .cyclesLeft) s t

/-- The same sprite drawn twice at the same origin restores the display (R91); the second draw gives VF = 1 if a cell the
sprite covers was off before the first. The last clause, VF = 0 where every covered cell was lit, goes against R93's own
inference: it is the model's choice to follow R91 and R92 there (log 20, DEDUCED). X and Y are not VF, which the first
draw writes; TwoDrawsToggleTheCellsExactlyOneCovers is about every X and Y. -/
def Obligations.DrawingTwiceRestoresTheDisplay : Prop :=
  ∀ (x y : RegIx) (n : BitVec 4) (s : State), x ≠ 15 → y ≠ 15 → (n.toNat = 0 ∨ s.i.toNat + n.toNat - 1 < 4096) →
    ∃ t u, exec (.drw x y n) s = .next t ∧ exec (.drw x y n) t = .next u ∧
      (∀ k, readCell u.disp k = readCell s.disp k) ∧
      ((∃ k, SpriteCovers s (s.readV x).toNat (s.readV y).toNat n.toNat k ∧ readCell s.disp k = false) →
        u.readV 15 = 1#8) ∧
      ((∀ k, SpriteCovers s (s.readV x).toNat (s.readV y).toNat n.toNat k → readCell s.disp k = true) →
        u.readV 15 = 0#8)

/-- The sentence the spec derives in R93, as it stands: the second draw gives VF = 1 whenever the sprite has an on-bit
that reaches a cell. R91 and R92 do not give it: where every cell the sprite covers was lit before the first draw, the
second turns cells on only. The model follows R91 and R92 (log 20), so this is expected to fail. -/
def Obligations.SecondDrawCollidesWheneverTheSpriteReachesACell : Prop :=
  ∀ (x y : RegIx) (n : BitVec 4) (s t u : State), x ≠ 15 → y ≠ 15 →
    (n.toNat = 0 ∨ s.i.toNat + n.toNat - 1 < 4096) →
    exec (.drw x y n) s = .next t → exec (.drw x y n) t = .next u →
    (∃ k, SpriteCovers s (s.readV x).toNat (s.readV y).toNat n.toNat k) → u.readV 15 = 1#8

/-! ### Unrecognized words -/

/-- An unrecognized word is appended to REPORT (the spec's own decision D17); V, I, SP, STACK, the timers, DISP, memory
and the advanced pc are unchanged. -/
def Obligations.UnrecognizedWordIsOnlyReported : Prop :=
  ∀ (raw : Word) (s : State),
    ∃ t, exec (.unrecognized raw) s = .next t ∧ t.report = s.report ++ [raw] ∧ ChangesOnly (· = .report) s t

/-! ### Rules of the whole machine -/

/-- No step writes memory, the parameters or the key array: after construction the first two are constant, and the
third is the host's. -/
def Obligations.NoStepWritesMemoryParametersOrKeys : Prop :=
  ∀ s t : State, step s = .next t →
    t.mem = s.mem ∧ (∀ a, t.byte a = s.byte a) ∧ t.params = s.params ∧ t.keys = s.keys

/-- A step changes I only by running ANNN or FX1E. -/
def Obligations.OnlyLoadIndexAndAddIndexWriteI : Prop :=
  ∀ s t : State, step s = .next t → t.i ≠ s.i →
    (∃ nnn, s.runsNext (.ldI nnn)) ∨ (∃ x, s.runsNext (.addI x))

/-- A step changes STACK or SP only by running 2NNN: SP rises by 1, entry SP becomes A + 2, no other entry changes. SP
never falls. -/
def Obligations.OnlyCallsMoveTheStack : Prop :=
  ∀ s t : State, step s = .next t →
    (t.stack = s.stack ∧ t.sp = s.sp) ∨
    (∃ nnn, s.runsNext (.call nnn) ∧ ∃ k : Fin 16, k.val = s.sp.val ∧ t.sp.val = s.sp.val + 1 ∧
      t.stack[k] = s.pc + 2#16 ∧ ∀ j : Fin 16, j ≠ k → t.stack[j] = s.stack[j])

/-- A step changes a display cell only by running 00E0 or DXYN. -/
def Obligations.OnlyClearAndDrawWriteTheDisplay : Prop :=
  ∀ s t : State, step s = .next t → (∃ k, readCell t.disp k ≠ readCell s.disp k) →
    s.runsNext .cls ∨ (∃ x y n, s.runsNext (.drw x y n))

/-- A step changes a V register only by running an instruction whose row of R15's table writes it. -/
def Obligations.RegistersAreWrittenByTheirTableRow : Prop :=
  ∀ (s t : State) (r : RegIx), step s = .next t → t.readV r ≠ s.readV r →
    ∃ i, s.runsNext i ∧ mayWriteV i r

/-- A step that runs an instruction leaves pc as R18's table says, unless it faults, and then pc is A. -/
def Obligations.PcFollowsTheTableOfPcChanges : Prop :=
  ∀ (s : State) (i : Instr), s.runsNext i →
    ∃ t, step s = .next t ∧ (t.fault = none → t.pc = pcAfter s i) ∧ (t.fault ≠ none → t.pc = s.pc)

/-- REPORT is append-only: a step adds at most one word, and adds one exactly when it runs that unrecognized word. -/
def Obligations.ReportGrowsOnlyByUnrecognizedWords : Prop :=
  ∀ s t : State, step s = .next t →
    (t.report = s.report ∧ ∀ raw, ¬ s.runsNext (.unrecognized raw)) ∨
    (∃ raw, s.runsNext (.unrecognized raw) ∧ t.report = s.report ++ [raw])

/-- A fault is precise: a step that records one leaves every other piece of the state, pc among them, as it was before
the cycle (the frame is over, log 3); the record's address is that pc; and its condition holds of the halted state: for
codes 2 to 4, that of the FX65, DXYN or 2NNN its word decodes to (the spec's own decisions D3, D6, D12, D29). That the
word is the one fetched is FaultRecordsHoldTheFetchedWord. -/
def Obligations.FaultsArePrecise : Prop :=
  ∀ (s t : State) (f : FaultRecord), s.fault = none → step s = .next t → t.fault = some f →
    f.addr = s.pc ∧ f.holdsOf t ∧ ChangesOnly (fun p => p = .fault ∨ p = .cyclesLeft) s t

/-- Noninterference: two states that differ only in KEYS, STACK entries, DT, ST and PIXEL_ON, which no rule of a cycle
reads, still differ only in those after a step. -/
def Obligations.UnreadStateInfluencesNothing : Prop :=
  ∀ s s' : State, s.readPart = s'.readPart →
    ∃ t t', step s = .next t ∧ step s' = .next t' ∧ t.readPart = t'.readPart

/-! ### Ports -/

/-- Between frames the display output's word k is PIXEL_ON for a lit cell and 0 for one that is off, so non-zero exactly
when lit (the spec's own decisions D13, D16, D28); during a frame there is no output. -/
def Obligations.DisplayOutputIsNonZeroExactlyWhereLit : Prop :=
  ∀ s : State, s.params.wf →
    (0 < s.cyclesLeft → displayOutput s = none) ∧
    (s.cyclesLeft = 0 → ∃ out, displayOutput s = some out ∧ ∀ k : Fin 2048,
      (readCell s.disp k = true → out[k] = s.params.pixelOn) ∧ (readCell s.disp k = false → out[k] = 0#32) ∧
      (out[k] ≠ 0#32 ↔ readCell s.disp k = true))

/-- The host's write of the key array between frames changes the keys alone; during a frame it cannot be made (the
spec's own decisions D13, D20). -/
def Obligations.KeyWriteChangesOnlyTheKeys : Prop :=
  ∀ (keys : Vector Bool 16) (s : State),
    (0 < s.cyclesLeft → hostWriteKeys keys s = none) ∧
    (s.cyclesLeft = 0 → ∃ t, hostWriteKeys keys s = some t ∧ t.keys = keys ∧
      ChangesOnly (fun p => ∃ k, p = .key k) s t)

/-! ### The invariant -/

/-- Every step keeps the invariant `State.Inv`, from every state that has it: canonical memory, pc at most 0x1002, both
timers 0, the stack's free and used entries, REPORT of unrecognized words only, the frame's budget, and a true and
precise fault record. -/
def Obligations.EveryStepKeepsTheInvariant : Prop :=
  ∀ s t : State, s.Inv → step s = .next t → t.Inv

/-- Every run, of any number of steps from any state with the invariant, goes on and ends in one with it. -/
def Obligations.EveryRunGoesOnAndKeepsTheInvariant : Prop :=
  ∀ (k : Nat) (s : State), s.Inv → ∃ t, Sys2Proof.core.run k s = .next t ∧ t.Inv

/-! ### Beside the statements above -/

/-- Two draws with the same operands, X or Y = 15 among them, where the first draw's VF moves the second's origin: exactly
the cells that one of the two covers and the other does not are toggled. Between the draws only VF, the first's
collision, differs among the registers (the spec's own decisions D4, D7 to D10, log 20). -/
def Obligations.TwoDrawsToggleTheCellsExactlyOneCovers : Prop :=
  ∀ (x y : RegIx) (n : BitVec 4) (s : State), (n.toNat = 0 ∨ s.i.toNat + n.toNat - 1 < 4096) →
    ∃ t u, exec (.drw x y n) s = .next t ∧ exec (.drw x y n) t = .next u ∧
      (∀ r, r ≠ 15 → t.readV r = s.readV r) ∧
      ((∃ k, SpriteCovers s (s.readV x).toNat (s.readV y).toNat n.toNat k ∧ readCell s.disp k = true) →
        t.readV 15 = 1#8) ∧
      ((∀ k, SpriteCovers s (s.readV x).toNat (s.readV y).toNat n.toNat k → readCell s.disp k = false) →
        t.readV 15 = 0#8) ∧
      ∀ k,
        ((SpriteCovers s (s.readV x).toNat (s.readV y).toNat n.toNat k ↔
            SpriteCovers s (t.readV x).toNat (t.readV y).toNat n.toNat k) →
          readCell u.disp k = readCell s.disp k) ∧
        (¬ (SpriteCovers s (s.readV x).toNat (s.readV y).toNat n.toNat k ↔
            SpriteCovers s (t.readV x).toNat (t.readV y).toNat n.toNat k) →
          readCell u.disp k = !readCell s.disp k)

/-- The recorded opcode is 0 for a fetch fault, and otherwise the word of the two bytes at the faulting pc (big-endian:
D1, log 15), which is the instruction the step ran: an FX65, a DXYN or a 2NNN as the code says (the spec's own decisions
D3, D6, D12, D29). -/
def Obligations.FaultRecordsHoldTheFetchedWord : Prop :=
  ∀ (s t : State) (f : FaultRecord), s.fault = none → step s = .next t → t.fault = some f →
    (f.code = .fetchOutOfRange ∧ f.opcode = 0#16 ∧ 4096 ≤ s.pc.toNat + 1) ∨
    (f.opcode.toNat = 256 * (s.byte s.pc.toNat).toNat + (s.byte (s.pc.toNat + 1)).toNat ∧
      ((f.code = .loadOutOfRange ∧ ∃ x, s.runsNext (.ldMem x) ∧ f.opcode = encode (.ldMem x)) ∨
       (f.code = .spriteOutOfRange ∧ ∃ x y n, s.runsNext (.drw x y n) ∧ f.opcode = encode (.drw x y n)) ∨
       (f.code = .stackOverflow ∧ ∃ nnn, s.runsNext (.call nnn) ∧ f.opcode = encode (.call nnn))))
end

