-- ==== Sys2Proof/Laws/State.lean ====
section
/-! SUPPORT. Each field of a state after each update, by the update's definition: no proof unfolds a record update. -/

namespace Sys2Proof.Machine

@[simp] theorem advancePc_mem (s : State) : (advancePc s).mem = s.mem := rfl
@[simp] theorem advancePc_v (s : State) : (advancePc s).v = s.v := rfl
@[simp] theorem advancePc_i (s : State) : (advancePc s).i = s.i := rfl
@[simp] theorem advancePc_pc (s : State) : (advancePc s).pc = s.pc + 2#16 := rfl
@[simp] theorem advancePc_stack (s : State) : (advancePc s).stack = s.stack := rfl
@[simp] theorem advancePc_sp (s : State) : (advancePc s).sp = s.sp := rfl
@[simp] theorem advancePc_dt (s : State) : (advancePc s).dt = s.dt := rfl
@[simp] theorem advancePc_st (s : State) : (advancePc s).st = s.st := rfl
@[simp] theorem advancePc_disp (s : State) : (advancePc s).disp = s.disp := rfl
@[simp] theorem advancePc_keys (s : State) : (advancePc s).keys = s.keys := rfl
@[simp] theorem advancePc_params (s : State) : (advancePc s).params = s.params := rfl
@[simp] theorem advancePc_fault (s : State) : (advancePc s).fault = s.fault := rfl
@[simp] theorem advancePc_report (s : State) : (advancePc s).report = s.report := rfl
@[simp] theorem advancePc_cyclesLeft (s : State) : (advancePc s).cyclesLeft = s.cyclesLeft := rfl

@[simp] theorem skipNext_mem (s : State) : (skipNext s).mem = s.mem := rfl
@[simp] theorem skipNext_v (s : State) : (skipNext s).v = s.v := rfl
@[simp] theorem skipNext_i (s : State) : (skipNext s).i = s.i := rfl
@[simp] theorem skipNext_pc (s : State) : (skipNext s).pc = s.pc + 2#16 := rfl
@[simp] theorem skipNext_stack (s : State) : (skipNext s).stack = s.stack := rfl
@[simp] theorem skipNext_sp (s : State) : (skipNext s).sp = s.sp := rfl
@[simp] theorem skipNext_dt (s : State) : (skipNext s).dt = s.dt := rfl
@[simp] theorem skipNext_st (s : State) : (skipNext s).st = s.st := rfl
@[simp] theorem skipNext_disp (s : State) : (skipNext s).disp = s.disp := rfl
@[simp] theorem skipNext_keys (s : State) : (skipNext s).keys = s.keys := rfl
@[simp] theorem skipNext_params (s : State) : (skipNext s).params = s.params := rfl
@[simp] theorem skipNext_fault (s : State) : (skipNext s).fault = s.fault := rfl
@[simp] theorem skipNext_report (s : State) : (skipNext s).report = s.report := rfl
@[simp] theorem skipNext_cyclesLeft (s : State) : (skipNext s).cyclesLeft = s.cyclesLeft := rfl

@[simp] theorem jumpTo_mem (a : Word) (s : State) : (jumpTo a s).mem = s.mem := rfl
@[simp] theorem jumpTo_v (a : Word) (s : State) : (jumpTo a s).v = s.v := rfl
@[simp] theorem jumpTo_i (a : Word) (s : State) : (jumpTo a s).i = s.i := rfl
@[simp] theorem jumpTo_pc (a : Word) (s : State) : (jumpTo a s).pc = a := rfl
@[simp] theorem jumpTo_stack (a : Word) (s : State) : (jumpTo a s).stack = s.stack := rfl
@[simp] theorem jumpTo_sp (a : Word) (s : State) : (jumpTo a s).sp = s.sp := rfl
@[simp] theorem jumpTo_dt (a : Word) (s : State) : (jumpTo a s).dt = s.dt := rfl
@[simp] theorem jumpTo_st (a : Word) (s : State) : (jumpTo a s).st = s.st := rfl
@[simp] theorem jumpTo_disp (a : Word) (s : State) : (jumpTo a s).disp = s.disp := rfl
@[simp] theorem jumpTo_keys (a : Word) (s : State) : (jumpTo a s).keys = s.keys := rfl
@[simp] theorem jumpTo_params (a : Word) (s : State) : (jumpTo a s).params = s.params := rfl
@[simp] theorem jumpTo_fault (a : Word) (s : State) : (jumpTo a s).fault = s.fault := rfl
@[simp] theorem jumpTo_report (a : Word) (s : State) : (jumpTo a s).report = s.report := rfl
@[simp] theorem jumpTo_cyclesLeft (a : Word) (s : State) : (jumpTo a s).cyclesLeft = s.cyclesLeft := rfl

@[simp] theorem writeV_mem (r : RegIx) (b : Byte) (s : State) : (s.writeV r b).mem = s.mem := rfl
@[simp] theorem writeV_v (r : RegIx) (b : Byte) (s : State) : (s.writeV r b).v = s.v.set r b := rfl
@[simp] theorem writeV_i (r : RegIx) (b : Byte) (s : State) : (s.writeV r b).i = s.i := rfl
@[simp] theorem writeV_pc (r : RegIx) (b : Byte) (s : State) : (s.writeV r b).pc = s.pc := rfl
@[simp] theorem writeV_stack (r : RegIx) (b : Byte) (s : State) : (s.writeV r b).stack = s.stack := rfl
@[simp] theorem writeV_sp (r : RegIx) (b : Byte) (s : State) : (s.writeV r b).sp = s.sp := rfl
@[simp] theorem writeV_dt (r : RegIx) (b : Byte) (s : State) : (s.writeV r b).dt = s.dt := rfl
@[simp] theorem writeV_st (r : RegIx) (b : Byte) (s : State) : (s.writeV r b).st = s.st := rfl
@[simp] theorem writeV_disp (r : RegIx) (b : Byte) (s : State) : (s.writeV r b).disp = s.disp := rfl
@[simp] theorem writeV_keys (r : RegIx) (b : Byte) (s : State) : (s.writeV r b).keys = s.keys := rfl
@[simp] theorem writeV_params (r : RegIx) (b : Byte) (s : State) : (s.writeV r b).params = s.params := rfl
@[simp] theorem writeV_fault (r : RegIx) (b : Byte) (s : State) : (s.writeV r b).fault = s.fault := rfl
@[simp] theorem writeV_report (r : RegIx) (b : Byte) (s : State) : (s.writeV r b).report = s.report := rfl
@[simp] theorem writeV_cyclesLeft (r : RegIx) (b : Byte) (s : State) : (s.writeV r b).cyclesLeft = s.cyclesLeft := rfl

@[simp] theorem writeFlag_mem (c : Bool) (s : State) : (s.writeFlag c).mem = s.mem := rfl
@[simp] theorem writeFlag_v (c : Bool) (s : State) : (s.writeFlag c).v = s.v.set 15 (flagValue c) := rfl
@[simp] theorem writeFlag_i (c : Bool) (s : State) : (s.writeFlag c).i = s.i := rfl
@[simp] theorem writeFlag_pc (c : Bool) (s : State) : (s.writeFlag c).pc = s.pc := rfl
@[simp] theorem writeFlag_stack (c : Bool) (s : State) : (s.writeFlag c).stack = s.stack := rfl
@[simp] theorem writeFlag_sp (c : Bool) (s : State) : (s.writeFlag c).sp = s.sp := rfl
@[simp] theorem writeFlag_dt (c : Bool) (s : State) : (s.writeFlag c).dt = s.dt := rfl
@[simp] theorem writeFlag_st (c : Bool) (s : State) : (s.writeFlag c).st = s.st := rfl
@[simp] theorem writeFlag_disp (c : Bool) (s : State) : (s.writeFlag c).disp = s.disp := rfl
@[simp] theorem writeFlag_keys (c : Bool) (s : State) : (s.writeFlag c).keys = s.keys := rfl
@[simp] theorem writeFlag_params (c : Bool) (s : State) : (s.writeFlag c).params = s.params := rfl
@[simp] theorem writeFlag_fault (c : Bool) (s : State) : (s.writeFlag c).fault = s.fault := rfl
@[simp] theorem writeFlag_report (c : Bool) (s : State) : (s.writeFlag c).report = s.report := rfl
@[simp] theorem writeFlag_cyclesLeft (c : Bool) (s : State) : (s.writeFlag c).cyclesLeft = s.cyclesLeft := rfl

@[simp] theorem writeI_mem (w : Word) (s : State) : (s.writeI w).mem = s.mem := rfl
@[simp] theorem writeI_v (w : Word) (s : State) : (s.writeI w).v = s.v := rfl
@[simp] theorem writeI_i (w : Word) (s : State) : (s.writeI w).i = w := rfl
@[simp] theorem writeI_pc (w : Word) (s : State) : (s.writeI w).pc = s.pc := rfl
@[simp] theorem writeI_stack (w : Word) (s : State) : (s.writeI w).stack = s.stack := rfl
@[simp] theorem writeI_sp (w : Word) (s : State) : (s.writeI w).sp = s.sp := rfl
@[simp] theorem writeI_dt (w : Word) (s : State) : (s.writeI w).dt = s.dt := rfl
@[simp] theorem writeI_st (w : Word) (s : State) : (s.writeI w).st = s.st := rfl
@[simp] theorem writeI_disp (w : Word) (s : State) : (s.writeI w).disp = s.disp := rfl
@[simp] theorem writeI_keys (w : Word) (s : State) : (s.writeI w).keys = s.keys := rfl
@[simp] theorem writeI_params (w : Word) (s : State) : (s.writeI w).params = s.params := rfl
@[simp] theorem writeI_fault (w : Word) (s : State) : (s.writeI w).fault = s.fault := rfl
@[simp] theorem writeI_report (w : Word) (s : State) : (s.writeI w).report = s.report := rfl
@[simp] theorem writeI_cyclesLeft (w : Word) (s : State) : (s.writeI w).cyclesLeft = s.cyclesLeft := rfl

@[simp] theorem writeByte_mem (a : Nat) (b : Byte) (s : State) : (s.writeByte a b).mem = Memory.write s.params.font s.mem a b := rfl
@[simp] theorem writeByte_v (a : Nat) (b : Byte) (s : State) : (s.writeByte a b).v = s.v := rfl
@[simp] theorem writeByte_i (a : Nat) (b : Byte) (s : State) : (s.writeByte a b).i = s.i := rfl
@[simp] theorem writeByte_pc (a : Nat) (b : Byte) (s : State) : (s.writeByte a b).pc = s.pc := rfl
@[simp] theorem writeByte_stack (a : Nat) (b : Byte) (s : State) : (s.writeByte a b).stack = s.stack := rfl
@[simp] theorem writeByte_sp (a : Nat) (b : Byte) (s : State) : (s.writeByte a b).sp = s.sp := rfl
@[simp] theorem writeByte_dt (a : Nat) (b : Byte) (s : State) : (s.writeByte a b).dt = s.dt := rfl
@[simp] theorem writeByte_st (a : Nat) (b : Byte) (s : State) : (s.writeByte a b).st = s.st := rfl
@[simp] theorem writeByte_disp (a : Nat) (b : Byte) (s : State) : (s.writeByte a b).disp = s.disp := rfl
@[simp] theorem writeByte_keys (a : Nat) (b : Byte) (s : State) : (s.writeByte a b).keys = s.keys := rfl
@[simp] theorem writeByte_params (a : Nat) (b : Byte) (s : State) : (s.writeByte a b).params = s.params := rfl
@[simp] theorem writeByte_fault (a : Nat) (b : Byte) (s : State) : (s.writeByte a b).fault = s.fault := rfl
@[simp] theorem writeByte_report (a : Nat) (b : Byte) (s : State) : (s.writeByte a b).report = s.report := rfl
@[simp] theorem writeByte_cyclesLeft (a : Nat) (b : Byte) (s : State) : (s.writeByte a b).cyclesLeft = s.cyclesLeft := rfl

@[simp] theorem reportWord_mem (w : Word) (s : State) : (reportWord w s).mem = s.mem := rfl
@[simp] theorem reportWord_v (w : Word) (s : State) : (reportWord w s).v = s.v := rfl
@[simp] theorem reportWord_i (w : Word) (s : State) : (reportWord w s).i = s.i := rfl
@[simp] theorem reportWord_pc (w : Word) (s : State) : (reportWord w s).pc = s.pc := rfl
@[simp] theorem reportWord_stack (w : Word) (s : State) : (reportWord w s).stack = s.stack := rfl
@[simp] theorem reportWord_sp (w : Word) (s : State) : (reportWord w s).sp = s.sp := rfl
@[simp] theorem reportWord_dt (w : Word) (s : State) : (reportWord w s).dt = s.dt := rfl
@[simp] theorem reportWord_st (w : Word) (s : State) : (reportWord w s).st = s.st := rfl
@[simp] theorem reportWord_disp (w : Word) (s : State) : (reportWord w s).disp = s.disp := rfl
@[simp] theorem reportWord_keys (w : Word) (s : State) : (reportWord w s).keys = s.keys := rfl
@[simp] theorem reportWord_params (w : Word) (s : State) : (reportWord w s).params = s.params := rfl
@[simp] theorem reportWord_fault (w : Word) (s : State) : (reportWord w s).fault = s.fault := rfl
@[simp] theorem reportWord_report (w : Word) (s : State) : (reportWord w s).report = s.report ++ [w] := rfl
@[simp] theorem reportWord_cyclesLeft (w : Word) (s : State) : (reportWord w s).cyclesLeft = s.cyclesLeft := rfl

@[simp] theorem takeFault_mem (c : FaultCode) (a op : Word) (s : State) : (takeFault c a op s).mem = s.mem := rfl
@[simp] theorem takeFault_v (c : FaultCode) (a op : Word) (s : State) : (takeFault c a op s).v = s.v := rfl
@[simp] theorem takeFault_i (c : FaultCode) (a op : Word) (s : State) : (takeFault c a op s).i = s.i := rfl
@[simp] theorem takeFault_pc (c : FaultCode) (a op : Word) (s : State) : (takeFault c a op s).pc = a := rfl
@[simp] theorem takeFault_stack (c : FaultCode) (a op : Word) (s : State) : (takeFault c a op s).stack = s.stack := rfl
@[simp] theorem takeFault_sp (c : FaultCode) (a op : Word) (s : State) : (takeFault c a op s).sp = s.sp := rfl
@[simp] theorem takeFault_dt (c : FaultCode) (a op : Word) (s : State) : (takeFault c a op s).dt = s.dt := rfl
@[simp] theorem takeFault_st (c : FaultCode) (a op : Word) (s : State) : (takeFault c a op s).st = s.st := rfl
@[simp] theorem takeFault_disp (c : FaultCode) (a op : Word) (s : State) : (takeFault c a op s).disp = s.disp := rfl
@[simp] theorem takeFault_keys (c : FaultCode) (a op : Word) (s : State) : (takeFault c a op s).keys = s.keys := rfl
@[simp] theorem takeFault_params (c : FaultCode) (a op : Word) (s : State) : (takeFault c a op s).params = s.params := rfl
@[simp] theorem takeFault_fault (c : FaultCode) (a op : Word) (s : State) : (takeFault c a op s).fault = some ⟨c, a, op⟩ := rfl
@[simp] theorem takeFault_report (c : FaultCode) (a op : Word) (s : State) : (takeFault c a op s).report = s.report := rfl
@[simp] theorem takeFault_cyclesLeft (c : FaultCode) (a op : Word) (s : State) : (takeFault c a op s).cyclesLeft = 0 := rfl

@[simp] theorem tickTimers_mem (s : State) : (tickTimers s).mem = s.mem := rfl
@[simp] theorem tickTimers_v (s : State) : (tickTimers s).v = s.v := rfl
@[simp] theorem tickTimers_i (s : State) : (tickTimers s).i = s.i := rfl
@[simp] theorem tickTimers_pc (s : State) : (tickTimers s).pc = s.pc := rfl
@[simp] theorem tickTimers_stack (s : State) : (tickTimers s).stack = s.stack := rfl
@[simp] theorem tickTimers_sp (s : State) : (tickTimers s).sp = s.sp := rfl
@[simp] theorem tickTimers_dt (s : State) : (tickTimers s).dt = countDown s.dt := rfl
@[simp] theorem tickTimers_st (s : State) : (tickTimers s).st = countDown s.st := rfl
@[simp] theorem tickTimers_disp (s : State) : (tickTimers s).disp = s.disp := rfl
@[simp] theorem tickTimers_keys (s : State) : (tickTimers s).keys = s.keys := rfl
@[simp] theorem tickTimers_params (s : State) : (tickTimers s).params = s.params := rfl
@[simp] theorem tickTimers_fault (s : State) : (tickTimers s).fault = s.fault := rfl
@[simp] theorem tickTimers_report (s : State) : (tickTimers s).report = s.report := rfl
@[simp] theorem tickTimers_cyclesLeft (s : State) : (tickTimers s).cyclesLeft = s.cyclesLeft := rfl

@[simp] theorem beginFrame_mem (s : State) : (beginFrame s).mem = s.mem := rfl
@[simp] theorem beginFrame_v (s : State) : (beginFrame s).v = s.v := rfl
@[simp] theorem beginFrame_i (s : State) : (beginFrame s).i = s.i := rfl
@[simp] theorem beginFrame_pc (s : State) : (beginFrame s).pc = s.pc := rfl
@[simp] theorem beginFrame_stack (s : State) : (beginFrame s).stack = s.stack := rfl
@[simp] theorem beginFrame_sp (s : State) : (beginFrame s).sp = s.sp := rfl
@[simp] theorem beginFrame_dt (s : State) : (beginFrame s).dt = countDown s.dt := rfl
@[simp] theorem beginFrame_st (s : State) : (beginFrame s).st = countDown s.st := rfl
@[simp] theorem beginFrame_disp (s : State) : (beginFrame s).disp = s.disp := rfl
@[simp] theorem beginFrame_keys (s : State) : (beginFrame s).keys = s.keys := rfl
@[simp] theorem beginFrame_params (s : State) : (beginFrame s).params = s.params := rfl
@[simp] theorem beginFrame_fault (s : State) : (beginFrame s).fault = s.fault := rfl
@[simp] theorem beginFrame_report (s : State) : (beginFrame s).report = s.report := rfl
@[simp] theorem beginFrame_cyclesLeft (s : State) : (beginFrame s).cyclesLeft = s.params.ipf := rfl
@[simp] theorem withCyclesLeft_mem (n : Nat) (s : State) : (s.withCyclesLeft n).mem = s.mem := rfl
@[simp] theorem withCyclesLeft_v (n : Nat) (s : State) : (s.withCyclesLeft n).v = s.v := rfl
@[simp] theorem withCyclesLeft_i (n : Nat) (s : State) : (s.withCyclesLeft n).i = s.i := rfl
@[simp] theorem withCyclesLeft_pc (n : Nat) (s : State) : (s.withCyclesLeft n).pc = s.pc := rfl
@[simp] theorem withCyclesLeft_stack (n : Nat) (s : State) : (s.withCyclesLeft n).stack = s.stack := rfl
@[simp] theorem withCyclesLeft_sp (n : Nat) (s : State) : (s.withCyclesLeft n).sp = s.sp := rfl
@[simp] theorem withCyclesLeft_dt (n : Nat) (s : State) : (s.withCyclesLeft n).dt = s.dt := rfl
@[simp] theorem withCyclesLeft_st (n : Nat) (s : State) : (s.withCyclesLeft n).st = s.st := rfl
@[simp] theorem withCyclesLeft_disp (n : Nat) (s : State) : (s.withCyclesLeft n).disp = s.disp := rfl
@[simp] theorem withCyclesLeft_keys (n : Nat) (s : State) : (s.withCyclesLeft n).keys = s.keys := rfl
@[simp] theorem withCyclesLeft_params (n : Nat) (s : State) : (s.withCyclesLeft n).params = s.params := rfl
@[simp] theorem withCyclesLeft_fault (n : Nat) (s : State) : (s.withCyclesLeft n).fault = s.fault := rfl
@[simp] theorem withCyclesLeft_report (n : Nat) (s : State) : (s.withCyclesLeft n).report = s.report := rfl
@[simp] theorem withCyclesLeft_cyclesLeft (n : Nat) (s : State) : (s.withCyclesLeft n).cyclesLeft = n := rfl

end Sys2Proof.Machine
end

