-- ==== Sys2Proof/Laws/Memory.lean ====
section
/-! SUPPORT. Memory: read after write, and the canonical form is kept by every write and by construction. -/

namespace Sys2Proof.Machine

variable (font : Vector Byte 80)

/-- The form, entry by entry: every address rises above the one before, exists, and is worth listing. -/
theorem Memory.wf_cons (c : Host.Cell) (m : Memory) :
    Memory.wf font (c :: m) = true ↔
      (∀ d ∈ m, c.1 < d.1) ∧ c.1 < 4096 ∧ c.2 ≠ Memory.unlisted font c.1 ∧ Memory.wf font m = true := by
  simp only [Memory.wf, Memory.rising, List.all_cons, Bool.and_eq_true, List.all_eq_true, decide_eq_true_eq,
    bne_iff_ne]
  tauto

theorem Memory.wf_nil : Memory.wf font [] = true := rfl

/-- An address below every listed one is unlisted. -/
theorem Memory.read_of_below (m : Memory) (a : Nat) (h : ∀ d ∈ m, a < d.1) :
    Memory.read font m a = Memory.unlisted font a := by
  induction m with
  | nil => rfl
  | cons c m ih =>
    have hc := h c (by simp)
    simp only [Memory.read]
    rw [if_neg (by omega)]
    exact ih fun d hd => h d (by simp [hd])

/-- A read at the address written gives the value written. -/
theorem Memory.read_write_same (m : Memory) (a : Nat) (b : Byte) (h : Memory.wf font m = true) :
    Memory.read font (Memory.write font m a b) a = b := by
  induction m with
  | nil =>
    simp only [Memory.write]
    split
    · simp [Memory.read, *]
    · simp [Memory.read]
  | cons c m ih =>
    obtain ⟨hlt, -, -, hm⟩ := (Memory.wf_cons font c m).1 h
    have hskip : ∀ a, a ≤ c.1 → Memory.read font m a = Memory.unlisted font a := fun a ha =>
      Memory.read_of_below font m a fun d hd => by have := hlt d hd; omega
    simp only [Memory.write]
    split_ifs with h1 h2 h2 h3
    · simp only [Memory.read]
      rw [if_neg (by omega), hskip a (by omega), h2]
    · simp [Memory.read]
    · rw [hskip a (by omega), h3]
    · simp [Memory.read]
    · simp only [Memory.read]
      rw [if_neg (by omega)]
      exact ih hm

/-- A write leaves every other address alone. -/
theorem Memory.read_write_other (m : Memory) (a a' : Nat) (b : Byte) (h : Memory.wf font m = true) (hne : a' ≠ a) :
    Memory.read font (Memory.write font m a b) a' = Memory.read font m a' := by
  induction m with
  | nil =>
    simp only [Memory.write]
    split
    · rfl
    · simp [Memory.read, Ne.symm hne]
  | cons c m ih =>
    obtain ⟨hlt, -, -, hm⟩ := (Memory.wf_cons font c m).1 h
    simp only [Memory.write]
    split_ifs with h1 h2 h2 h3
    · rfl
    · simp [Memory.read, Ne.symm hne]
    · subst h2
      simp [Memory.read, Ne.symm hne]
    · subst h2
      simp [Memory.read, Ne.symm hne]
    · simp only [Memory.read, ih hm]

/-- Every address a write leaves listed was listed before or is the one written. -/
theorem Memory.mem_write (m : Memory) (a : Nat) (b : Byte) (d : Host.Cell)
    (hd : d ∈ Memory.write font m a b) : d ∈ m ∨ d = (a, b) := by
  induction m with
  | nil =>
    simp only [Memory.write] at hd
    split at hd <;> simp_all
  | cons c m ih =>
    simp only [Memory.write] at hd
    split_ifs at hd <;> simp only [List.mem_cons] at hd ⊢ <;> tauto

/-- A write to an existing cell keeps the canonical form. -/
theorem Memory.wf_write (m : Memory) (a : Nat) (b : Byte) (ha : a < 4096) (h : Memory.wf font m = true) :
    Memory.wf font (Memory.write font m a b) = true := by
  induction m with
  | nil =>
    simp only [Memory.write]
    split
    · rfl
    · exact (Memory.wf_cons font _ _).2 ⟨by simp, ha, ‹_›, rfl⟩
  | cons c m ih =>
    obtain ⟨hlt, hc, hv, hm⟩ := (Memory.wf_cons font c m).1 h
    simp only [Memory.write]
    split_ifs with h1 h2 h2 h3
    · exact h
    · refine (Memory.wf_cons font _ _).2 ⟨?_, ha, h2, h⟩
      intro d hd
      rcases List.mem_cons.1 hd with rfl | hd
      · exact h1
      · have := hlt d hd; simp only; omega
    · exact hm
    · exact (Memory.wf_cons font _ _).2 ⟨by simpa [h2] using hlt, ha, h3, hm⟩
    · refine (Memory.wf_cons font _ _).2 ⟨?_, hc, hv, ih hm⟩
      intro d hd
      rcases Memory.mem_write font m a b d hd with hd | rfl
      · exact hlt d hd
      · simp only; omega

/-- Placing a ROM keeps the canonical form, as long as it fits. -/
theorem Memory.wf_writeRom (rom : List Byte) (a : Nat) (m : Memory) (ha : a + rom.length ≤ 4096)
    (h : Memory.wf font m = true) : Memory.wf font (writeRom font a rom m) = true := by
  induction rom generalizing a m with
  | nil => exact h
  | cons b bs ih =>
    simp only [List.length_cons] at ha
    exact ih (a + 1) _ (by omega) (Memory.wf_write font m a b (by omega) h)

/-- Placing a ROM puts its byte k at a + k and leaves every other address alone. -/
theorem Memory.read_writeRom (rom : List Byte) (a : Nat) (m : Memory) (ha : a + rom.length ≤ 4096)
    (h : Memory.wf font m = true) (j : Nat) :
    Memory.read font (writeRom font a rom m) j =
      if hj : a ≤ j ∧ j < a + rom.length then rom[j - a]'(by omega) else Memory.read font m j := by
  induction rom generalizing a m with
  | nil => simp only [writeRom, List.length_nil]; rw [dif_neg (by omega)]
  | cons b bs ih =>
    simp only [List.length_cons] at ha
    have hw := Memory.wf_write font m a b (by omega) h
    simp only [writeRom]
    rw [ih (a + 1) _ (by omega) hw]
    by_cases h1 : a + 1 ≤ j ∧ j < a + 1 + bs.length
    · have e : j - a = (j - (a + 1)) + 1 := by omega
      rw [dif_pos h1, dif_pos (by simp only [List.length_cons]; omega)]
      simp [e]
    · rw [dif_neg h1]
      by_cases h2 : j = a
      · subst h2
        rw [Memory.read_write_same font m j b h, dif_pos (by simp)]
        simp
      · rw [Memory.read_write_other font m a j b h h2, dif_neg (by simp only [List.length_cons]; omega)]

/-- The same laws for a state: a byte read after a byte write. -/
theorem State.byte_writeByte (s : State) (a a' : Nat) (b : Byte) (h : Memory.wf s.params.font s.mem = true) :
    (s.writeByte a b).byte a' = if a' = a then b else s.byte a' := by
  simp only [State.byte, writeByte_mem, writeByte_params]
  split
  · subst a'; exact Memory.read_write_same _ _ _ _ h
  · exact Memory.read_write_other _ _ _ _ _ h ‹_›

/-- A byte read depends on the memory and the font alone. -/
theorem State.byte_congr (s t : State) (hm : t.mem = s.mem) (hp : t.params = s.params) (a : Nat) :
    t.byte a = s.byte a := by simp [State.byte, hm, hp]

end Sys2Proof.Machine
end

