-- ==== Sys2Proof/Laws/Ops.lean ====
section
/-! SUPPORT. One lemma per shared operation that says everything it can do; later proofs cite these and do not unfold. -/

namespace Sys2Proof.Machine

/-! ### Range checks -/

/-- An address is in range exactly below 4096 (R39). -/
theorem inRange_iff (a : Nat) : inRange a = true ↔ a < 4096 := decide_eq_true_iff

/-- R88's check: an empty sprite reads nothing, any other needs its last byte's address. -/
theorem spriteInRange_iff (s : State) (h : Nat) :
    spriteInRange s h = true ↔ h = 0 ∨ s.i.toNat + h - 1 < 4096 := by
  simp only [spriteInRange, Bool.or_eq_true, beq_iff_eq, inRange_iff, State.elemAddr]
  omega

/-! ### Fetch -/

/-- The fetch gives a word exactly when both its bytes exist, and then the two bytes at pc, high byte first (R65). -/
theorem fetch_eq_some (s : State) (w : Word) :
    fetch s = some w ↔
      s.pc.toNat + 1 < 4096 ∧ w = wordOfBytes (s.byte s.pc.toNat) (s.byte (s.pc.toNat + 1)) := by
  simp only [fetch, inRange, Config.memSize, decide_eq_true_eq]
  split <;> simp_all [eq_comm]

/-- The fetch gives nothing exactly when its second byte does not exist (R65). -/
theorem fetch_eq_none (s : State) : fetch s = none ↔ 4096 ≤ s.pc.toNat + 1 := by
  simp only [fetch, inRange, Config.memSize, decide_eq_true_eq]
  split
  · simp only [reduceCtorEq, false_iff]; omega
  · simp only [true_iff]; omega

/-- The fetch depends on pc, the memory and the font alone. -/
theorem fetch_congr (s t : State) (hpc : t.pc = s.pc) (hm : t.mem = s.mem) (hp : t.params = s.params) :
    fetch t = fetch s := by
  simp only [fetch, hpc, State.byte_congr s t hm hp]

/-! ### Registers -/

/-- A register read after a register write. -/
theorem readV_writeV (s : State) (r r' : RegIx) (b : Byte) :
    (s.writeV r b).readV r' = if r' = r then b else s.readV r' := by
  simp only [State.readV, writeV_v, Fin.getElem_fin, Vector.getElem_set, Fin.ext_iff, eq_comm]

/-- A register read after a flag write. -/
theorem readV_writeFlag (s : State) (c : Bool) (r : RegIx) :
    (s.writeFlag c).readV r = if r = 15 then flagValue c else s.readV r := readV_writeV s 15 r _

/-- A register read depends on the registers alone. -/
theorem readV_congr (s t : State) (h : t.v = s.v) (r : RegIx) : t.readV r = s.readV r := by
  simp [State.readV, h]

/-- The loop of FX65: the first n registers hold the n bytes from `base` on, the others are as before (R85). -/
theorem getElem_loadFrom (s : State) (base n : Nat) (v : Vector Byte 16) (k : Nat) (hk : k < 16) :
    (loadFrom s base n v)[k] = if k < n then s.byte (base + k) else v[k] := by
  induction n with
  | zero => rfl
  | succ n ih =>
    simp only [loadFrom, Vector.getElem_setIfInBounds, ih]
    by_cases h : n = k
    · subst h; simp
    · rw [if_neg h]
      by_cases h' : k < n
      · rw [if_pos h', if_pos (by omega)]
      · rw [if_neg h', if_neg (by omega)]

/-! ### Call stack -/

/-- A push succeeds exactly below a full stack (R73). -/
theorem push_eq_some (s t : State) (w : Word) :
    s.push w = some t ↔ ∃ h : s.sp.val < 16,
      t = { s with stack := s.stack.set s.sp.val w h, sp := ⟨s.sp.val + 1, by omega⟩ } := by
  simp only [State.push]
  split
  · simp_all [eq_comm]
  · simp_all

theorem push_eq_none (s : State) (w : Word) : s.push w = none ↔ s.sp.val = 16 := by
  have := s.sp.isLt
  simp only [State.push]
  split
  · simp only [reduceCtorEq, false_iff]; omega
  · simp only [true_iff]; omega

/-! ### Display cells -/

/-- A cell read after a cell write. -/
theorem readCell_writeCell (d : Disp) (k k' : Fin 2048) (on : Bool) :
    readCell (writeCell d k on) k' = if k' = k then on else readCell d k' := by
  have hk := k.isLt
  simp only [readCell, writeCell, Vector.getElem_set]
  by_cases h1 : k.val / 64 = k'.val / 64
  · simp only [h1, if_true, Vector.getElem_set]
    by_cases h2 : k.val % 64 = k'.val % 64
    · have e : k' = k := Fin.ext (by omega)
      simp [h2, e]
    · have e : k' ≠ k := fun e => h2 (by rw [e])
      simp [h2, e]
  · have e : k' ≠ k := fun e => h1 (by rw [e])
    simp [h1, e]

/-- The clear grid is off everywhere (R86). -/
theorem readCell_clearDisp (k : Fin 2048) : readCell clearDisp k = false := by
  simp [readCell, clearDisp]

/-- The cells are the whole grid: two grids that read the same everywhere are equal (R23). -/
theorem disp_ext (d e : Disp) (h : ∀ k, readCell d k = readCell e k) : d = e := by
  apply Vector.ext
  intro r hr
  apply Vector.ext
  intro c hc
  have := h ⟨r * 64 + c, by omega⟩
  simp only [readCell] at this
  have e1 : (r * 64 + c) / 64 = r := by omega
  have e2 : (r * 64 + c) % 64 = c := by omega
  simpa only [e1, e2] using this

/-! ### pc -/

/-- The executing instruction's address is the pc it was fetched at (R66, R97). -/
theorem instrAddr_advancePc (s : State) : instrAddr (advancePc s) = s.pc := by
  simp [instrAddr]

end Sys2Proof.Machine
end

