-- ==== Sys2Proof/Laws/Display.lean ====
section
/-! SUPPORT. The sprite draw: pixels that reach different cells toggle each of them once (R90, R91). -/

namespace Sys2Proof.Machine

/-- From `p` to `q` exactly the cells of `hit` are toggled, and the accumulator records whether one of them was lit. -/
structure Toggles (hit : Fin 2048 → Prop) (p q : Disp × Bool) : Prop where
  on : ∀ k, hit k → readCell q.1 k = !readCell p.1 k
  off : ∀ k, ¬ hit k → readCell q.1 k = readCell p.1 k
  collided : q.2 = true ↔ p.2 = true ∨ ∃ k, hit k ∧ readCell p.1 k = true

theorem Toggles.refl (p : Disp × Bool) : Toggles (fun _ => False) p p :=
  ⟨fun _ h => h.elim, fun _ _ => rfl, by simp⟩

theorem Toggles.congr (hit hit' : Fin 2048 → Prop) (p q : Disp × Bool) (h : Toggles hit p q)
    (e : ∀ k, hit k ↔ hit' k) : Toggles hit' p q := by
  have : hit = hit' := funext fun k => propext (e k)
  exact this ▸ h

/-- Two draws over different cells make one draw over both. -/
theorem Toggles.trans (a b : Fin 2048 → Prop) (p q r : Disp × Bool) (h1 : Toggles a p q) (h2 : Toggles b q r)
    (hd : ∀ k, a k → ¬ b k) : Toggles (fun k => a k ∨ b k) p r where
  on k hk := by
    rcases hk with ha | hb
    · rw [h2.off k (hd k ha), h1.on k ha]
    · rw [h2.on k hb, h1.off k fun ha => hd k ha hb]
  off k hk := by rw [h2.off k fun hb => hk (.inr hb), h1.off k fun ha => hk (.inl ha)]
  collided := by
    rw [h2.collided, h1.collided]
    constructor
    · rintro ((h | ⟨k, ha, hl⟩) | ⟨k, hb, hl⟩)
      · exact .inl h
      · exact .inr ⟨k, .inl ha, hl⟩
      · exact .inr ⟨k, .inr hb, by rwa [h1.off k fun ha => hd k ha hb] at hl⟩
    · rintro (h | ⟨k, ha | hb, hl⟩)
      · exact .inl (.inl h)
      · exact .inl (.inr ⟨k, ha, hl⟩)
      · exact .inr ⟨k, hb, by rwa [h1.off k fun ha => hd k ha hb]⟩

theorem toggleCell_toggles (k : Fin 2048) (p : Disp × Bool) : Toggles (· = k) p (toggleCell k p) where
  on k' h := by subst h; simp [toggleCell, readCell_writeCell]
  off k' h := by simp [toggleCell, readCell_writeCell, h]
  collided := by simp [toggleCell]

/-- The cell R90's function gives is the cell the pixel lands on. -/
theorem cellOf_eq_some (b : DrawBounds) (px py : Nat) (k : Fin 2048) :
    cellOf b px py = some k ↔ LandsOn b px py k.val := by
  cases b with
  | wrap => simp [cellOf, LandsOn, Fin.ext_iff, eq_comm]
  | clip =>
    simp only [cellOf, LandsOn]
    split
    · simp [Fin.ext_iff, eq_comm, *]
    · simp only [reduceCtorEq, false_iff]; tauto

/-- No two pixels of one sprite land on the same cell: 8 ≤ 64 columns and fewer than 32 rows (R90). -/
theorem LandsOn.unique (b : DrawBounds) (x y c c' r r' k : Nat) (hc : c < 8) (hc' : c' < 8) (hr : r < 32)
    (hr' : r' < 32) (h : LandsOn b (x + c) (y + r) k) (h' : LandsOn b (x + c') (y + r') k) : c = c' ∧ r = r' := by
  cases b <;> simp only [LandsOn] at h h' <;> omega

/-- One pixel toggles the cell it lands on, if its bit is on. -/
theorem plotPixel_toggles (b : DrawBounds) (x y : Nat) (row : Byte) (p : Disp × Bool) (c : Nat) :
    Toggles (fun k => rowBit row c = true ∧ LandsOn b (x + c) y k.val) p (plotPixel b x y row p c) := by
  simp only [plotPixel]
  by_cases hb : rowBit row c = true
  · rw [if_pos hb]
    cases hk : cellOf b (x + c) y with
    | some k =>
      refine (toggleCell_toggles k p).congr _ _ _ _ fun k' => ?_
      rw [← cellOf_eq_some, hk]
      simp [hb, eq_comm]
    | none =>
      refine (Toggles.refl p).congr _ _ _ _ fun k' => ?_
      rw [← cellOf_eq_some, hk]
      simp
  · rw [if_neg hb]
    exact (Toggles.refl p).congr _ _ _ _ fun k' => by simp [hb]

/-- The first n pixels of a row toggle the cells they land on. -/
theorem foldl_plotPixel_toggles (b : DrawBounds) (x y : Nat) (row : Byte) (p : Disp × Bool) (n : Nat) (hn : n ≤ 8) :
    Toggles (fun k => ∃ c, c < n ∧ rowBit row c = true ∧ LandsOn b (x + c) y k.val) p
      ((List.range n).foldl (plotPixel b x y row) p) := by
  induction n with
  | zero => exact (Toggles.refl p).congr _ _ _ _ fun k => by simp
  | succ n ih =>
    rw [List.range_succ, List.foldl_append]
    refine ((ih (by omega)).trans _ _ _ _ _ (plotPixel_toggles b x y row _ n) ?_).congr _ _ _ _ fun k => ?_
    · rintro k ⟨c, hc, -, hk⟩ ⟨-, hk'⟩
      have := LandsOn.unique b x y c n 0 0 k.val (by omega) (by omega) (by omega) (by omega) hk hk'
      omega
    · constructor
      · rintro (⟨c, hc, h⟩ | h)
        · exact ⟨c, by omega, h⟩
        · exact ⟨n, by omega, h⟩
      · rintro ⟨c, hc, h⟩
        by_cases e : c = n
        · subst e; exact .inr h
        · exact .inl ⟨c, by omega, h⟩

/-- The first n rows of a sprite toggle exactly the cells they cover, and the accumulator ends true exactly when one of
those was lit (R87 to R91). -/
theorem drawSprite_toggles (s : State) (x y h : Nat) (hh : h ≤ 32) :
    Toggles (SpriteCovers s x y h) (s.disp, false) (drawSprite s x y h) := by
  simp only [drawSprite]
  induction h with
  | zero => exact (Toggles.refl _).congr _ _ _ _ fun k => by simp [SpriteCovers]
  | succ h ih =>
    rw [List.range_succ, List.foldl_append]
    refine ((ih (by omega)).trans _ _ _ _ _
      (foldl_plotPixel_toggles s.params.drawBounds x (y + h) (s.byte (s.elemAddr h)) _ 8 (le_refl 8)) ?_).congr
      _ _ _ _ fun k => ?_
    · rintro k ⟨r, c, hr, hc, -, hk⟩ ⟨c', hc', -, hk'⟩
      have := LandsOn.unique s.params.drawBounds x y c c' r h k.val hc hc' (by omega) (by omega) hk hk'
      omega
    · constructor
      · rintro (⟨r, c, hr, hcr⟩ | ⟨c, hc, hb, hk⟩)
        · exact ⟨r, c, by omega, hcr⟩
        · exact ⟨h, c, by omega, hc, hb, hk⟩
      · rintro ⟨r, c, hr, hc, hb, hk⟩
        by_cases e : r = h
        · subst e; exact .inr ⟨c, hc, hb, hk⟩
        · exact .inl ⟨r, c, by omega, hc, hb, hk⟩

end Sys2Proof.Machine
end

