-- ==== Sys2Proof/Laws/Encoding.lean ====
section
/-! SUPPORT. The fields of a word (R53): a field as a number, and the fields of a word put together from nibbles. -/

namespace Sys2Proof

/-- A field as a number: shift down, then cut to its width. -/
theorem bitField_toNat (lo len : Nat) (w : Word) : (bitField lo len w).toNat = w.toNat / 2 ^ lo % 2 ^ len := by
  simp [bitField, Nat.shiftRight_eq_div_pow]

/-- A word of a class nibble and a 12-bit address, as a number (R63). -/
theorem toNat_class_addr (c : BitVec 4) (a : Addr12) : (c ++ a : Word).toNat = c.toNat * 4096 + a.toNat := by
  rw [BitVec.toNat_append, ← Nat.shiftLeft_add_eq_or_of_lt a.isLt, Nat.shiftLeft_eq]

/-- A word of a class nibble, a register nibble and a byte, as a number (R63). -/
theorem toNat_class_reg_byte (c : BitVec 4) (x : RegIx) (b : Byte) :
    (c ++ regNibble x ++ b : Word).toNat = c.toNat * 4096 + x.val * 256 + b.toNat := by
  have hx : (regNibble x).toNat = x.val := rfl
  rw [BitVec.toNat_append, ← Nat.shiftLeft_add_eq_or_of_lt b.isLt, BitVec.toNat_append,
    ← Nat.shiftLeft_add_eq_or_of_lt (regNibble x).isLt, hx]
  simp only [Nat.shiftLeft_eq]
  omega

/-- A word of four nibbles, as a number (R63). -/
theorem toNat_nibbles (c : BitVec 4) (x y : RegIx) (n : BitVec 4) :
    (c ++ regNibble x ++ regNibble y ++ n : Word).toNat =
      c.toNat * 4096 + x.val * 256 + y.val * 16 + n.toNat := by
  have hx : (regNibble x).toNat = x.val := rfl
  have hy : (regNibble y).toNat = y.val := rfl
  rw [BitVec.toNat_append, ← Nat.shiftLeft_add_eq_or_of_lt n.isLt, BitVec.toNat_append,
    ← Nat.shiftLeft_add_eq_or_of_lt (regNibble y).isLt, BitVec.toNat_append,
    ← Nat.shiftLeft_add_eq_or_of_lt (regNibble x).isLt, hx, hy]
  simp only [Nat.shiftLeft_eq]
  omega

/-- The fields of a word given as a number. -/
theorem fieldsOf_eq (w : Word) (c : BitVec 4) (x y : RegIx) (n : BitVec 4)
    (h : w.toNat = c.toNat * 4096 + x.val * 256 + y.val * 16 + n.toNat) :
    fieldsOf w = { c := c, x := x, y := y, n := n, nn := BitVec.ofNat 8 (y.val * 16 + n.toNat),
                   nnn := BitVec.ofNat 12 (x.val * 256 + y.val * 16 + n.toNat), raw := w } := by
  have hc := c.isLt
  have hx := x.isLt
  have hy := y.isLt
  have hn := n.isLt
  simp only [fieldsOf, Fields.mk.injEq, and_true]
  refine ⟨?_, ?_, ?_, ?_, ?_, ?_⟩
  · apply BitVec.eq_of_toNat_eq; rw [bitField_toNat]; omega
  · apply Fin.ext; change (bitField 8 4 w).toNat = _; rw [bitField_toNat]; omega
  · apply Fin.ext; change (bitField 4 4 w).toNat = _; rw [bitField_toNat]; omega
  · apply BitVec.eq_of_toNat_eq; rw [bitField_toNat]; omega
  · apply BitVec.eq_of_toNat_eq; rw [bitField_toNat, BitVec.toNat_ofNat]; omega
  · apply BitVec.eq_of_toNat_eq; rw [bitField_toNat, BitVec.toNat_ofNat]; omega

/-- The fields of a class nibble and a 12-bit address that the classes with NNN read. -/
theorem fieldsOf_class_addr (c : BitVec 4) (a : Addr12) :
    (fieldsOf (c ++ a : Word)).c = c ∧ (fieldsOf (c ++ a : Word)).nnn = a := by
  have hc := c.isLt
  have ha := a.isLt
  refine ⟨?_, ?_⟩ <;>
  · apply BitVec.eq_of_toNat_eq
    simp only [fieldsOf, bitField_toNat, toNat_class_addr]
    omega

/-- The fields of a class nibble, a register nibble and a byte that the classes with X and NN read. -/
theorem fieldsOf_class_reg_byte (c : BitVec 4) (x : RegIx) (b : Byte) :
    (fieldsOf (c ++ regNibble x ++ b : Word)).c = c ∧ (fieldsOf (c ++ regNibble x ++ b : Word)).x = x ∧
      (fieldsOf (c ++ regNibble x ++ b : Word)).nn = b := by
  have hc := c.isLt
  have hx := x.isLt
  have hb := b.isLt
  refine ⟨?_, ?_, ?_⟩
  · apply BitVec.eq_of_toNat_eq; simp only [fieldsOf, bitField_toNat, toNat_class_reg_byte]; omega
  · apply Fin.ext
    change (bitField 8 4 _).toNat = _
    simp only [bitField_toNat, toNat_class_reg_byte]; omega
  · apply BitVec.eq_of_toNat_eq; simp only [fieldsOf, bitField_toNat, toNat_class_reg_byte]; omega

/-- A masked word as a number, for the masks of R57: each keeps whole nibbles. -/
theorem toNat_mask_class (w : Word) : (w &&& 0xF000#16).toNat = w.toNat / 4096 * 4096 := by
  have bits : ∀ i : Fin 16, (0xF000#16).getLsbD i = decide (12 ≤ i.val) := by decide
  have h : w &&& 0xF000#16 = (w >>> 12) <<< 12 := by
    apply BitVec.eq_of_getLsbD_eq
    intro i hi
    have hb := bits ⟨i, hi⟩
    simp only [BitVec.getLsbD_and, BitVec.getLsbD_shiftLeft, BitVec.getLsbD_ushiftRight, hb]
    by_cases h12 : 12 ≤ i
    · have e : 12 + (i - 12) = i := by omega
      simp [h12, hi, e, Nat.not_lt.2 h12]
    · simp [h12, Nat.lt_of_not_le h12]
  have hw := w.isLt
  rw [h]
  simp [Nat.shiftLeft_eq, Nat.shiftRight_eq_div_pow]
  omega

theorem toNat_mask_low_nibble (w : Word) : (w &&& 0x000F#16).toNat = w.toNat % 16 := by
  rw [BitVec.toNat_and]
  exact Nat.and_two_pow_sub_one_eq_mod w.toNat 4

theorem toNat_mask_low_byte (w : Word) : (w &&& 0x00FF#16).toNat = w.toNat % 256 := by
  rw [BitVec.toNat_and]
  exact Nat.and_two_pow_sub_one_eq_mod w.toNat 8

/-- Two masks that share no bit keep their parts separately. -/
theorem toNat_mask_split (w a b : Word) (h : a &&& b = 0#16) :
    (w &&& (a ||| b)).toNat = (w &&& a).toNat + (w &&& b).toNat := by
  have hd : (w &&& a) &&& (w &&& b) = 0#16 := by
    rw [BitVec.and_assoc, BitVec.and_comm a, BitVec.and_assoc w b a, BitVec.and_comm b a, h]
    simp
  rw [BitVec.and_or_distrib_left, ← BitVec.add_eq_or_of_and_eq_zero _ _ hd]
  exact BitVec.toNat_add_of_and_eq_zero hd

theorem toNat_mask_class_low_nibble (w : Word) :
    (w &&& 0xF00F#16).toNat = w.toNat / 4096 * 4096 + w.toNat % 16 := by
  have h := toNat_mask_split w 0xF000#16 0x000F#16 (by decide)
  rwa [toNat_mask_class, toNat_mask_low_nibble] at h

theorem toNat_mask_class_low_byte (w : Word) :
    (w &&& 0xF0FF#16).toNat = w.toNat / 4096 * 4096 + w.toNat % 256 := by
  have h := toNat_mask_split w 0xF000#16 0x00FF#16 (by decide)
  rwa [toNat_mask_class, toNat_mask_low_byte] at h

/-- A word matches the exact pattern 00E0 only if it is that word. -/
theorem mask_all (w : Word) : w &&& 0xFFFF#16 = w := BitVec.and_allOnes

end Sys2Proof
end

