-- ==== Sys2Proof/Laws/PerInstr.lean ====
section
/-! SUPPORT. A law about every instruction as syntax, one lemma per constructor: its word matches its own row of R57's
list, and the word of an unrecognized instruction matches no row. -/

namespace Sys2Proof.Laws.EncodePattern

/-- The word of a well-formed instruction matches the row of its constructor, or no row where it has none (R57, R63). -/
def Statement (i : Instr) : Prop :=
  i.wf = true →
    match i.pattern with
    | some p => p.matchesWord (encode i) = true
    | none => ∀ p ∈ patterns, p.matchesWord (encode i) = false

/-- A match as an equation between numbers. -/
theorem matchesWord_iff (p : Pattern) (w : Word) :
    p.matchesWord w = true ↔ (w &&& p.mask).toNat = p.val.toNat := by
  rw [BitVec.toNat_inj]; simp [Pattern.matchesWord]

theorem cls : Statement .cls := fun _ => by
  change Pattern.matchesWord ⟨0xFFFF#16, 0x00E0#16⟩ 0x00E0#16 = true
  decide

theorem jp (nnn : Addr12) : Statement (.jp nnn) := fun _ => by
  have := nnn.isLt
  simp only [Instr.pattern, encode, matchesWord_iff, toNat_mask_class, toNat_class_addr, BitVec.reduceToNat]
  omega

theorem call (nnn : Addr12) : Statement (.call nnn) := fun _ => by
  have := nnn.isLt
  simp only [Instr.pattern, encode, matchesWord_iff, toNat_mask_class, toNat_class_addr, BitVec.reduceToNat]
  omega

theorem seImm (x : RegIx) (nn : Byte) : Statement (.seImm x nn) := fun _ => by
  have := nn.isLt
  simp only [Instr.pattern, encode, matchesWord_iff, toNat_mask_class, toNat_class_reg_byte, BitVec.reduceToNat]
  omega

theorem sneImm (x : RegIx) (nn : Byte) : Statement (.sneImm x nn) := fun _ => by
  have := nn.isLt
  simp only [Instr.pattern, encode, matchesWord_iff, toNat_mask_class, toNat_class_reg_byte, BitVec.reduceToNat]
  omega

theorem seReg (x y : RegIx) : Statement (.seReg x y) := fun _ => by
  simp only [Instr.pattern, encode, matchesWord_iff, toNat_mask_class_low_nibble, toNat_nibbles, BitVec.reduceToNat]
  omega

theorem ldImm (x : RegIx) (nn : Byte) : Statement (.ldImm x nn) := fun _ => by
  have := nn.isLt
  simp only [Instr.pattern, encode, matchesWord_iff, toNat_mask_class, toNat_class_reg_byte, BitVec.reduceToNat]
  omega

theorem addImm (x : RegIx) (nn : Byte) : Statement (.addImm x nn) := fun _ => by
  have := nn.isLt
  simp only [Instr.pattern, encode, matchesWord_iff, toNat_mask_class, toNat_class_reg_byte, BitVec.reduceToNat]
  omega

theorem ldReg (x y : RegIx) : Statement (.ldReg x y) := fun _ => by
  simp only [Instr.pattern, encode, matchesWord_iff, toNat_mask_class_low_nibble, toNat_nibbles, BitVec.reduceToNat]
  omega

theorem andReg (x y : RegIx) : Statement (.andReg x y) := fun _ => by
  simp only [Instr.pattern, encode, matchesWord_iff, toNat_mask_class_low_nibble, toNat_nibbles, BitVec.reduceToNat]
  omega

theorem addReg (x y : RegIx) : Statement (.addReg x y) := fun _ => by
  simp only [Instr.pattern, encode, matchesWord_iff, toNat_mask_class_low_nibble, toNat_nibbles, BitVec.reduceToNat]
  omega

theorem sneReg (x y : RegIx) : Statement (.sneReg x y) := fun _ => by
  simp only [Instr.pattern, encode, matchesWord_iff, toNat_mask_class_low_nibble, toNat_nibbles, BitVec.reduceToNat]
  omega

theorem ldI (nnn : Addr12) : Statement (.ldI nnn) := fun _ => by
  have := nnn.isLt
  simp only [Instr.pattern, encode, matchesWord_iff, toNat_mask_class, toNat_class_addr, BitVec.reduceToNat]
  omega

theorem drw (x y : RegIx) (n : BitVec 4) : Statement (.drw x y n) := fun _ => by
  have := n.isLt
  simp only [Instr.pattern, encode, matchesWord_iff, toNat_mask_class, toNat_nibbles, BitVec.reduceToNat]
  omega

theorem addI (x : RegIx) : Statement (.addI x) := fun _ => by
  simp only [Instr.pattern, encode, matchesWord_iff, toNat_mask_class_low_byte, toNat_class_reg_byte,
    BitVec.reduceToNat]
  omega

theorem ldMem (x : RegIx) : Statement (.ldMem x) := fun _ => by
  simp only [Instr.pattern, encode, matchesWord_iff, toNat_mask_class_low_byte, toNat_class_reg_byte,
    BitVec.reduceToNat]
  omega

theorem unrecognized (raw : Word) : Statement (.unrecognized raw) := fun h => by
  simpa [Instr.pattern, encode, Instr.wf, isImplemented] using h

end Sys2Proof.Laws.EncodePattern
end

