-- ==== Sys2Proof/Laws/Step.lean ====
section
/-! SUPPORT. What an instruction, a cycle and a step can do, said once: every later proof about runs splits on these. -/

namespace Sys2Proof.Machine

/-- The shapes of an instruction's effect: which fields of the state its next state differs in. -/
inductive Effect (i : Instr) (s : State) : State → Prop where
  | toPc (a : Word) : Effect i s { s with pc := a }
  | toV (v : Vector Byte 16) : Effect i s { s with v := v }
  | toI (w : Word) : Effect i s { s with i := w }
  | toDisp (d : Disp) (v : Vector Byte 16) : Effect i s { s with disp := d, v := v }
  | toStack (h : s.sp.val < 16) (nnn : Addr12) (hi : i = .call nnn) :
      Effect i s { s with stack := s.stack.set s.sp.val s.pc h, sp := ⟨s.sp.val + 1, by omega⟩,
                          pc := nnn.setWidth 16 }
  | toReport (raw : Word) (hi : i = .unrecognized raw) : Effect i s { s with report := s.report ++ [raw] }
  | toFault (c : FaultCode) : Effect i s (takeFault c (instrAddr s) (encode i) s)

theorem skipIf_eq (c : Bool) (s : State) : skipIf c s = { s with pc := if c then s.pc + 2#16 else s.pc } := by
  cases c <;> rfl

/-- Every instruction answers a next state, of one of these shapes. -/
theorem exec_effect (i : Instr) (s : State) : ∃ t, exec i s = .next t ∧ Effect i s t := by
  cases i with
  | cls => exact ⟨_, rfl, .toDisp clearDisp s.v⟩
  | jp nnn => exact ⟨_, rfl, .toPc _⟩
  | call nnn =>
    simp only [exec, execCall]
    cases h : s.push s.pc with
    | some t =>
      obtain ⟨hs, rfl⟩ := (push_eq_some s t s.pc).1 h
      exact ⟨_, rfl, .toStack hs nnn rfl⟩
    | none => exact ⟨_, rfl, .toFault _⟩
  | seImm x nn => exact ⟨_, rfl, by rw [skipIf_eq]; exact .toPc _⟩
  | sneImm x nn => exact ⟨_, rfl, by rw [skipIf_eq]; exact .toPc _⟩
  | seReg x y => exact ⟨_, rfl, by rw [skipIf_eq]; exact .toPc _⟩
  | ldImm x nn => exact ⟨_, rfl, .toV _⟩
  | addImm x nn => exact ⟨_, rfl, .toV _⟩
  | ldReg x y => exact ⟨_, rfl, .toV _⟩
  | andReg x y => exact ⟨_, rfl, .toV _⟩
  | addReg x y => exact ⟨_, rfl, .toV _⟩
  | sneReg x y => exact ⟨_, rfl, by rw [skipIf_eq]; exact .toPc _⟩
  | ldI nnn => exact ⟨_, rfl, .toI _⟩
  | drw x y n =>
    simp only [exec, execDrw]
    split
    · exact ⟨_, rfl, .toDisp _ _⟩
    · exact ⟨_, rfl, .toFault _⟩
  | addI x => exact ⟨_, rfl, .toI _⟩
  | ldMem x =>
    simp only [exec, execLdMem]
    split
    · exact ⟨_, rfl, .toV _⟩
    · exact ⟨_, rfl, .toFault _⟩
  | unrecognized raw => exact ⟨_, rfl, .toReport raw rfl⟩

/-- A cycle of a halted engine does nothing (R98). -/
theorem cycle_of_halted (s : State) (h : s.fault.isSome = true) : cycle s = .next s := by simp [cycle, h]

/-- A cycle of a running engine whose fetch fails records the fetch fault (R64, R65). -/
theorem cycle_of_fetch_none (s : State) (h : s.fault = none) (hw : fetch s = none) :
    cycle s = .next (takeFault .fetchOutOfRange s.pc 0#16 s) := by simp [cycle, h, hw]

/-- A cycle of a running engine dispatches the fetched word with pc advanced (R64, R66). -/
theorem cycle_of_fetch_some (s : State) (op : Word) (h : s.fault = none) (hw : fetch s = some op) :
    cycle s = exec (decode op) (advancePc s) := by simp [cycle, h, hw]

/-- Every cycle answers a next state (R95). -/
theorem cycle_next (s : State) : ∃ t, cycle s = .next t := by
  cases h : s.fault with
  | some f => exact ⟨s, cycle_of_halted s (by simp [h])⟩
  | none =>
    cases hw : fetch s with
    | none => exact ⟨_, cycle_of_fetch_none s h hw⟩
    | some op =>
      rw [cycle_of_fetch_some s op h hw]
      exact (exec_effect _ _).imp fun _ h => h.1

/-- A step of a halted engine does nothing (R98). -/
theorem step_of_halted (s : State) (h : s.fault.isSome = true) : step s = .next s := by
  simp [step, driverStep, h]

/-- A step of a running engine between frames starts one (R108). -/
theorem step_of_between (s : State) (h : s.fault = none) (hc : s.cyclesLeft = 0) :
    step s = .next (beginFrame s) := by
  simp [step, driverStep, h, hc]

/-- A step of a running engine inside a frame is a dispatch cycle, one fewer left (R108). -/
theorem step_of_inside (s : State) (n : Nat) (h : s.fault = none) (hc : s.cyclesLeft = n + 1) :
    step s = cycle (s.withCyclesLeft n) := by
  simp [step, driverStep, h, hc]

/-- What a step can do: nothing when halted; the start of a frame; a fetch fault; or the fetched instruction. -/
theorem step_cases (s t : State) (h : step s = .next t) :
    (s.fault.isSome = true ∧ t = s) ∨
    (s.fault = none ∧ s.cyclesLeft = 0 ∧ t = beginFrame s) ∨
    (∃ n, s.fault = none ∧ s.cyclesLeft = n + 1 ∧ 4096 ≤ s.pc.toNat + 1 ∧
      t = takeFault .fetchOutOfRange s.pc 0#16 s) ∨
    (∃ n w, s.fault = none ∧ s.cyclesLeft = n + 1 ∧ s.pc.toNat + 1 < 4096 ∧
      w = wordOfBytes (s.byte s.pc.toNat) (s.byte (s.pc.toNat + 1)) ∧
      exec (decode w) (advancePc (s.withCyclesLeft n)) = .next t) := by
  by_cases hf : s.fault = none
  · cases hc : s.cyclesLeft with
    | zero =>
      rw [step_of_between s hf hc, Host.Outcome.next.injEq] at h
      exact .inr (.inl ⟨hf, rfl, h.symm⟩)
    | succ n =>
      have hfetch := fetch_congr s (s.withCyclesLeft n) rfl rfl rfl
      rw [step_of_inside s n hf hc] at h
      cases hw : fetch s with
      | none =>
        rw [cycle_of_fetch_none (s.withCyclesLeft n) hf (hfetch.trans hw), Host.Outcome.next.injEq] at h
        exact .inr (.inr (.inl ⟨n, hf, rfl, (fetch_eq_none s).1 hw, h.symm⟩))
      | some w =>
        rw [cycle_of_fetch_some (s.withCyclesLeft n) w hf (hfetch.trans hw)] at h
        obtain ⟨hlt, hw'⟩ := (fetch_eq_some s w).1 hw
        exact .inr (.inr (.inr ⟨n, w, hf, rfl, hlt, hw', h⟩))
  · have hs : s.fault.isSome = true := Option.isSome_iff_ne_none.2 hf
    rw [step_of_halted s hs, Host.Outcome.next.injEq] at h
    exact .inl ⟨hs, h.symm⟩

end Sys2Proof.Machine
end

