-- ==== Sys2Proof/Tests/Slice0.lean ====
section
/-! SUPPORT. Tests of the model against the spec's own words and vectors (95_test_vectors.md; the vector's name stands
beside each test), and for every obligation with hypotheses a witness that meets them. -/

namespace Sys2Proof.Tests

open Sys2Proof.Machine

/-! ### Small states -/

/-- Parameters with every OPEN value fixed, for tests alone. -/
def sampleParams : Params := { ipf := 4, drawBounds := .wrap, font := defaultFont, pixelOn := 0xFFFFFFFF#32 }

/-- S0 of 95_test_vectors.md, between frames. -/
def s0 : State := constructed sampleParams (Vector.replicate 16 false) []

/-- S0 inside a frame with `n` dispatch cycles left. -/
def inFrame (n : Nat) : State := { s0 with cyclesLeft := n }

/-- Bytes placed from an address on. -/
def place : Nat → List Byte → State → State
  | _, [], s => s
  | a, b :: bs, s => place (a + 1) bs (s.writeByte a b)

/-- Registers set, one after another. -/
def setV : List (RegIx × Byte) → State → State
  | [], s => s
  | (r, b) :: rs, s => setV rs (s.writeV r b)

/-- The test state: S0 with registers and I set. -/
def withRegs (rs : List (RegIx × Byte)) (i : Word) : State := { setV rs s0 with i := i }

/-- The step of `s` answers a next state with `p`. -/
def stepsTo (s : State) (p : State → Bool) : Bool :=
  match step s with
  | .next t => p t
  | .fault _ => false
  | .refused _ => false

/-- The step that runs the word `w` at pc answers a next state with `p`. -/
def runs (s : State) (w : Nat) (p : State → Bool) : Bool := stepsTo (s.withFetchWord 16 w) p

/-- A grid with the listed cells lit. -/
def lighted : List (Fin 2048) → Disp
  | [] => clearDisp
  | k :: ks => writeCell (lighted ks) k true

/-- A step that is seen to have `p` gives a next state to speak of. -/
theorem exists_of_stepsTo (s : State) (p : State → Bool) (h : stepsTo s p = true) :
    ∃ t, step s = .next t ∧ p t = true := by
  simp only [stepsTo] at h
  split at h
  · exact ⟨_, ‹_›, h⟩
  · cases h
  · cases h

/-- The listed cells are lit, and the others listed are off. -/
def cells (on off : List (Fin 2048)) (t : State) : Bool :=
  on.all (readCell t.disp ·) && off.all (!readCell t.disp ·)

/-! ### Decoding: words written out from R57 and R63 -/

theorem test_decode_cls : decode 0b0000000011100000#16 = .cls := by decide
theorem test_decode_jp : decode 0x1234#16 = .jp 0x234#12 := by decide
theorem test_decode_call : decode 0x2FFE#16 = .call 0xFFE#12 := by decide
theorem test_decode_se_imm : decode 0b0011001100101010#16 = .seImm 3 0x2A#8 := by decide
theorem test_decode_sne_imm : decode 0x4F01#16 = .sneImm 15 0x01#8 := by decide
theorem test_decode_se_reg : decode 0b0101000100100000#16 = .seReg 1 2 := by decide
theorem test_decode_ld_imm : decode 0x6A42#16 = .ldImm 10 0x42#8 := by decide
theorem test_decode_add_imm : decode 0x7FFF#16 = .addImm 15 0xFF#8 := by decide
theorem test_decode_ld_reg : decode 0x8120#16 = .ldReg 1 2 := by decide
theorem test_decode_and : decode 0x8F12#16 = .andReg 15 1 := by decide
theorem test_decode_add_reg : decode 0b1000000100100100#16 = .addReg 1 2 := by decide
theorem test_decode_sne_reg : decode 0x9120#16 = .sneReg 1 2 := by decide
theorem test_decode_ld_i : decode 0b1010000001010000#16 = .ldI 0x050#12 := by decide
theorem test_decode_drw : decode 0b1101000000010010#16 = .drw 0 1 2#4 := by decide
theorem test_decode_drw_empty : decode 0xD010#16 = .drw 0 1 0#4 := by decide
theorem test_decode_add_i : decode 0b1111001000011110#16 = .addI 2 := by decide
theorem test_decode_ld_mem : decode 0b1111010101100101#16 = .ldMem 5 := by decide

/-- V-CY7: every word of the vector, and 00EE (R70), is unrecognized. -/
theorem test_decode_unrecognized :
    [0x0000#16, 0x00EE#16, 0x01E0#16, 0x5121#16, 0x8121#16, 0x8125#16, 0x812E#16, 0x9121#16, 0xB123#16, 0xC0FF#16,
     0xE09E#16, 0xE0A1#16, 0xF007#16, 0xF00A#16, 0xF015#16, 0xF018#16, 0xF029#16, 0xF033#16, 0xF055#16].all
      (fun w => decode w == .unrecognized w) = true := by decide

/-- A byte sequence: the first two bytes, high byte first (R42), and the rest; a lone byte is no instruction. -/
theorem test_decode_bytes :
    decodeBytes [0x12#8, 0x34#8, 0x56#8] = .ok (.jp 0x234#12, [0x56#8]) ∧
    decodeBytes [0x12#8] = .error .truncated ∧ decodeBytes [] = .error .truncated := by
  refine ⟨rfl, rfl, rfl⟩

theorem test_encode_bytes : encodeBytes (.drw 0 1 5#4) = [0xD0#8, 0x15#8] := by decide

theorem test_decode_table_word : decodeTableWord 16 0xF565 = some (.ldMem 5) := by decide

/-! ### WellFormed: the ill-formed terms -/

theorem test_wf_refuses_implemented_word : (Instr.unrecognized 0x00E0#16).wf = false := by decide
theorem test_wf_refuses_every_class :
    [0x1000#16, 0x2000#16, 0x3000#16, 0x4000#16, 0x5000#16, 0x6000#16, 0x7000#16, 0x8000#16, 0x8002#16, 0x8004#16,
     0x9000#16, 0xA000#16, 0xD000#16, 0xF01E#16, 0xF065#16].all (fun w => !(Instr.unrecognized w).wf) = true := by
  decide
theorem test_wf_accepts_other_words :
    (Instr.unrecognized 0x00EE#16).wf = true ∧ (Instr.unrecognized 0x5121#16).wf = true := by decide

/-! ### The assembly text (R61) -/

theorem test_asm_call : (Instr.call 0x300#12).asm = "CALL 0x300" := by decide
theorem test_asm_drw : (Instr.drw 0 15 5#4).asm = "DRW V0, VF, 5" := by decide
theorem test_asm_word : (Instr.unrecognized 0x00EE#16).asm = ".word 0x00EE" := by decide

/-! ### Control transfer -/

/-- L1-4. -/
theorem test_jp : runs s0 0x1234 (fun t => t.pc == 0x234#16) = true := by decide
/-- V-CT3: an odd target. -/
theorem test_jp_odd : runs s0 0x1333 (fun t => t.pc == 0x333#16) = true := by decide
/-- V-CT4. -/
theorem test_call :
    runs s0 0x2300 (fun t => t.stack[0] == 0x202#16 && t.sp == 1 && t.pc == 0x300#16) = true := by decide
/-- V-CT6. -/
theorem test_call_full :
    runs { s0 with sp := 16, pc := 0x400#16 } 0x2500
      (fun t => t.fault == some ⟨.stackOverflow, 0x400#16, 0x2500#16⟩ && t.sp == 16 && t.pc == 0x400#16) = true := by
  decide
/-- V-CT7. -/
theorem test_se_imm_taken : runs (withRegs [(3, 0x2A#8)] 0) 0x332A (fun t => t.pc == 0x204#16) = true := by decide
/-- V-CT7. -/
theorem test_se_imm_not : runs (withRegs [(3, 0x2A#8)] 0) 0x332B (fun t => t.pc == 0x202#16) = true := by decide
/-- V-CT9. -/
theorem test_sne_imm_not : runs s0 0x4000 (fun t => t.pc == 0x202#16) = true := by decide
/-- V-CT9. -/
theorem test_sne_imm_taken : runs s0 0x4001 (fun t => t.pc == 0x204#16) = true := by decide
/-- L1-5. -/
theorem test_se_reg_taken :
    runs (withRegs [(1, 7#8), (2, 7#8)] 0) 0x5120 (fun t => t.pc == 0x204#16) = true := by decide
/-- V-CT11. -/
theorem test_se_reg_not :
    runs (withRegs [(1, 7#8), (2, 8#8)] 0) 0x5120 (fun t => t.pc == 0x202#16) = true := by decide
/-- V-CT13. -/
theorem test_sne_reg_taken :
    runs (withRegs [(1, 7#8), (2, 8#8)] 0) 0x9120 (fun t => t.pc == 0x204#16) = true := by decide
/-- V-CT12. -/
theorem test_sne_reg_same : runs (withRegs [(5, 7#8)] 0) 0x9550 (fun t => t.pc == 0x202#16) = true := by decide

/-! ### Register loads and arithmetic -/

/-- V-AL1. -/
theorem test_ld_imm : runs s0 0x6A42 (fun t => t.readV 10 == 0x42#8) = true := by decide
/-- V-AL3. -/
theorem test_add_imm_wraps :
    runs (withRegs [(0, 0xFF#8), (15, 0x55#8)] 0) 0x7001 (fun t => t.readV 0 == 0#8 && t.readV 15 == 0x55#8) = true := by
  decide
/-- V-AL4. -/
theorem test_add_imm_to_vf : runs (withRegs [(15, 0xFF#8)] 0) 0x7F01 (fun t => t.readV 15 == 0#8) = true := by decide
/-- V-AL6. -/
theorem test_ld_reg :
    runs (withRegs [(2, 0x99#8)] 0) 0x8120 (fun t => t.readV 1 == 0x99#8 && t.readV 2 == 0x99#8) = true := by decide
/-- V-AL8. -/
theorem test_and :
    runs (withRegs [(1, 0xCA#8), (2, 0xA6#8)] 0) 0x8122 (fun t => t.readV 1 == 0x82#8 && t.readV 2 == 0xA6#8) = true := by
  decide
/-- V-AL13. -/
theorem test_add_reg_to_vf :
    runs (withRegs [(15, 0xFF#8), (1, 0x01#8)] 0) 0x8F14 (fun t => t.readV 15 == 1#8) = true := by decide
/-- V-AL15. -/
theorem test_add_reg_from_vf :
    runs (withRegs [(1, 0x01#8), (15, 0xFF#8)] 0) 0x81F4 (fun t => t.readV 1 == 0#8 && t.readV 15 == 1#8) = true := by
  decide

/-! ### Index register and load -/

/-- V-IX1. -/
theorem test_ld_i : runs s0 0xAFFF (fun t => t.i == 0x0FFF#16) = true := by decide
/-- V-IX3. -/
theorem test_add_i :
    runs (withRegs [(2, 0x20#8), (15, 0x33#8)] 0x0FF0#16) 0xF21E
      (fun t => t.i == 0x1010#16 && t.readV 15 == 0x33#8) = true := by decide
/-- V-IX4. -/
theorem test_add_i_wraps : runs (withRegs [(0, 1#8)] 0xFFFF#16) 0xF01E (fun t => t.i == 0#16) = true := by decide
/-- L1-10. -/
theorem test_ld_mem :
    runs (place 0x300 [0x11#8, 0x22#8, 0x33#8, 0x44#8, 0x55#8, 0x66#8] (withRegs [(6, 0x77#8)] 0x300#16)) 0xF565
      (fun t => t.readV 0 == 0x11#8 && t.readV 4 == 0x55#8 && t.readV 5 == 0x66#8 && t.readV 6 == 0x77#8 &&
        t.i == 0x300#16) = true := by decide
/-- V-IX8. -/
theorem test_ld_mem_faults :
    runs (withRegs [(0, 9#8)] 0xFF1#16) 0xFF65
      (fun t => t.fault == some ⟨.loadOutOfRange, 0x200#16, 0xFF65#16⟩ && t.readV 0 == 9#8 && t.pc == 0x200#16) =
      true := by decide

/-! ### Display -/

/-- L1-3. -/
theorem test_cls :
    runs { s0 with disp := lighted [0, 63, 2047] } 0x00E0 (cells [] [0, 1, 63, 2047]) = true := by decide
/-- L1-8, with C3's 12 cells; and V-DR8, a collision. -/
theorem test_draw :
    runs (place 0x300 [0xFF#8, 0xAA#8] (withRegs [(0, 1#8), (1, 2#8)] 0x300#16)) 0xD012
      (fun t =>
        cells [129, 130, 131, 132, 133, 134, 135, 136, 193, 195, 197, 199] [128, 137, 192, 194, 196, 198, 200] t &&
        t.readV 15 == 0#8 && t.i == 0x300#16) = true ∧
    runs { place 0x300 [0xC0#8] (withRegs [] 0x300#16) with disp := lighted [0] } 0xD001
      (fun t => cells [1] [0, 2] t && t.readV 15 == 1#8) = true := by decide
/-- V-DR2 under WRAP and under CLIP, and V-DR11, a sprite past memory. -/
theorem test_draw_bounds :
    runs (place 0x300 [0xFF#8] (withRegs [(0, 62#8)] 0x300#16)) 0xD011
      (fun t => cells [62, 63, 0, 1, 2, 3, 4, 5] [61, 6, 64] t && t.readV 15 == 0#8) = true ∧
    runs { place 0x300 [0xFF#8] (withRegs [(0, 62#8)] 0x300#16) with
        params := { sampleParams with drawBounds := .clip } } 0xD011
      (fun t => cells [62, 63] [61, 0, 5, 64, 69] t && t.readV 15 == 0#8) = true ∧
    runs (withRegs [(15, 7#8)] 0xFFF#16) 0xD002
      (fun t => t.fault == some ⟨.spriteOutOfRange, 0x200#16, 0xD002#16⟩ && t.readV 15 == 7#8 && t.pc == 0x200#16) =
      true := by decide

/-! ### Unrecognized words -/

/-- V-CY6. -/
theorem test_unrecognized :
    runs s0 0x00EE (fun t => t.report == [0x00EE#16] && t.pc == 0x202#16 && t.sp == 0) = true := by decide

/-! ### Cycle, frame, construction -/

/-- V-CY2: the last word of memory. -/
theorem test_fetch_last :
    runs { s0 with pc := 0xFFE#16 } 0x6007 (fun t => t.readV 0 == 7#8 && t.pc == 0x1000#16) = true := by decide
/-- V-CY4. -/
theorem test_fetch_faults :
    stepsTo { inFrame 1 with pc := 0xFFF#16 }
      (fun t => t.fault == some ⟨.fetchOutOfRange, 0xFFF#16, 0#16⟩ && t.pc == 0xFFF#16) = true := by decide
/-- V-CY5: an odd fetch. -/
theorem test_fetch_odd :
    runs { s0 with pc := 0x201#16 } 0x6109 (fun t => t.readV 1 == 9#8 && t.pc == 0x203#16) = true := by decide
/-- V-FR2, first step of the frame. -/
theorem test_frame_start :
    stepsTo { s0 with dt := 3#8 } (fun t => t.dt == 2#8 && t.st == 0#8 && t.cyclesLeft == 4) = true := by decide
/-- L1-11: a frame of four cycles, the first a skip taken. -/
theorem test_frame :
    (match frame { s0 with mem := writeRom defaultFont 0x200 [0x30#8, 0x00#8, 0x12#8, 0x00#8] [] } with
      | .next t => t.pc == 0x20A#16 && t.report == [0#16, 0#16, 0#16] && t.dt == 0#8
      | .fault _ => false
      | .refused _ => false) = true := by decide
/-- V-CY8. -/
theorem test_halted :
    stepsTo { inFrame 1 with fault := some ⟨.stackOverflow, 0x200#16, 0x2200#16⟩ }
      (fun t => t.pc == 0x200#16 && t.cyclesLeft == 1) = true := by decide
/-- L1-1 on a short ROM: the font, the ROM and the zeros around them. -/
theorem test_construct :
    (match construct sampleParams (Vector.replicate 16 false) [0x12#8, 0x34#8] with
      | .next t => t.byte 0x04F == 0#8 && t.byte 0x050 == 0xF0#8 && t.byte 0x09F == 0x80#8 && t.byte 0x0A0 == 0#8 &&
          t.byte 0x200 == 0x12#8 && t.byte 0x201 == 0x34#8 && t.byte 0x202 == 0#8 && t.pc == 0x200#16
      | .fault _ => false
      | .refused _ => false) = true := by decide
/-- The first step after reset starts a frame, whatever IPF is (log 11). -/
theorem test_reset_starts_a_frame : step State.reset = .next (beginFrame State.reset) := rfl
/-- The first instruction after reset, as the host places it. -/
theorem test_reset_runs_a_word : runs State.reset 0x6A42 (fun t => t.readV 10 == 0x42#8) = true := by decide

/-! ### Witnesses: for each obligation with hypotheses, inputs that meet them -/

/-- A witness of `State.runsNext` from a word placed at pc. -/
def placed (w : Nat) : State := s0.withFetchWord 16 w

/-- S0 has the invariant. -/
theorem s0_inv : s0.Inv where
  memory := by decide
  pixelOn := by decide
  pcBound := by decide
  timers := by decide
  stackFree := by decide
  stackUsed := by decide
  reported := by intro w hw; cases hw
  budget := by decide
  halted := by intro f hf; cases hf

theorem witness_ConstructionFailsExactlyForAnOversizedRom :
    3584 < (List.replicate 3585 0#8).length ∧ (List.replicate 3584 0#8).length ≤ 3584 := by
  simp only [List.length_replicate]; decide

theorem witness_ConstructionBuildsTheResetTable :
    (List.replicate 3584 0#8).length ≤ 3584 ∧ (0x09F < 4096 ∧ 0x050 ≤ 0x09F) ∧
    (0xFFF < 0x200 + (List.replicate 3584 0#8).length) := by
  simp only [List.length_replicate]; decide

theorem witness_EveryConstructedStateMeetsTheInvariant :
    sampleParams.wf ∧ (List.replicate 3584 0#8).length ≤ 3584 := by
  simp only [List.length_replicate]; decide

theorem witness_DecodingAnEncodedInstructionGivesItBack :
    (Instr.drw 15 15 15#4).wf = true ∧ (Instr.unrecognized 0xF066#16).wf = true := by decide

theorem witness_ClassificationFollowsTheMaskAndMatchPairs :
    0xF565#16 &&& 0xF0FF#16 = 0xF065#16 ∧ (∀ p ∈ patterns, 0xF066#16 &&& p.mask ≠ p.val) := by decide

theorem witness_StepRunsTheDecodedInstruction :
    { inFrame 1 with pc := 0xFFE#16 }.fault = none ∧ (inFrame 1).cyclesLeft = 0 + 1 ∧ (0xFFE#16).toNat + 1 < 4096 := by
  decide

theorem witness_WithFetchWordPlacesTheNextInstruction :
    0xFFFF < 65536 ∧ Memory.wf State.reset.params.font State.reset.mem = true := by decide

theorem witness_FetchPastMemoryFaultsPrecisely :
    { inFrame 1 with pc := 0xFFF#16 }.fault = none ∧ 0 < { inFrame 1 with pc := 0xFFF#16 }.cyclesLeft ∧
    4096 ≤ { inFrame 1 with pc := 0xFFF#16 }.pc.toNat + 1 := by decide

theorem witness_HaltedEngineNeverChanges :
    { s0 with fault := some ⟨.stackOverflow, 0x200#16, 0x2200#16⟩ }.fault ≠ none := by decide

theorem witness_EachFrameCountsBothTimersDownOnce :
    { s0 with dt := 1#8 }.fault = none ∧ { s0 with dt := 1#8 }.cyclesLeft = 0 ∧ 0 < { s0 with dt := 1#8 }.dt.toNat ∧
    { s0 with dt := 1#8 }.st.toNat = 0 := by decide

theorem witness_TimersMoveOnlyAtAFrameStart :
    s0.fault = none ∧ s0.cyclesLeft = 0 ∧ (inFrame 1).fault = none ∧ 0 < (inFrame 1).cyclesLeft := by decide

theorem witness_StepsOfAFrameAreTheFrameRule : s0.cyclesLeft = 0 ∧ State.reset.cyclesLeft = 0 := by decide

theorem witness_FrameWithoutBudgetOnlyMovesTimers :
    { s0 with params := { sampleParams with ipf := 0 } }.params.ipf = 0 := by decide

theorem witness_CallPushesTheAdvancedPcAndJumps :
    s0.sp.val = (0 : Fin 16).val ∧ { s0 with sp := 15 }.sp.val = (15 : Fin 16).val := by decide

theorem witness_CallOnAFullStackFaults : { s0 with sp := 16 }.sp.val = 16 := by decide

/-- Both sides of each skip's condition. -/
theorem witness_SkipsAddTwoExactlyWhenTheirConditionHolds :
    (withRegs [(3, 0x2A#8)] 0).readV 3 = 0x2A#8 ∧ (withRegs [(3, 0x2A#8)] 0).readV 3 ≠ 0x2B#8 ∧
    s0.readV 0 = s0.readV 1 ∧ (withRegs [(3, 0x2A#8)] 0).readV 3 ≠ (withRegs [(3, 0x2A#8)] 0).readV 0 := by decide

/-- The carry at its boundary: 255 gives none, 256 gives one. -/
theorem witness_AddRegistersWritesTheSumThenTheCarry :
    (1 : RegIx) ≠ 15 ∧ ¬ (0x7F#8).toNat + (0x80#8).toNat > 255 ∧ (0x80#8).toNat + (0x80#8).toNat > 255 := by decide

theorem witness_LoadRegistersCopiesFromMemory :
    (withRegs [] 0xFF0#16).i.toNat + (15 : RegIx).val < 4096 ∧ (15 : RegIx) ≤ 15 := by decide

theorem witness_LoadPastMemoryFaults : 4096 ≤ (withRegs [] 0xFF1#16).i.toNat + (15 : RegIx).val := by decide

/-- A one-row sprite whose leftmost pixel reaches cell 0. -/
def oneDot : State := place 0x300 [0x80#8] (withRegs [] 0x300#16)

theorem oneDot_covers : SpriteCovers oneDot 0 0 1 0 := ⟨0, 0, by decide, by decide, by decide, rfl⟩

theorem witness_DrawXorsTheSpriteIntoTheDisplay :
    (withRegs [] 0xFFF#16).i.toNat + (1#4).toNat - 1 < 4096 ∧ ((0#4).toNat = 0) ∧ SpriteCovers oneDot 0 0 1 0 ∧
    readCell oneDot.disp 0 = false ∧ SpriteCovers { oneDot with disp := lighted [0] } 0 0 1 0 ∧
    readCell { oneDot with disp := lighted [0] }.disp 0 = true :=
  ⟨by decide, by decide, oneDot_covers, by decide, oneDot_covers, by decide⟩

/-- The sprite touches the last byte, the last column and the last row; one pixel is on and one off. -/
theorem witness_OnGridPixelsToggleAndReportCollisions :
    (withRegs [] 0xFFF#16).i.toNat + (1#4).toNat ≤ 4096 ∧ (56#8).toNat + 8 ≤ 64 ∧ (31#8).toNat + (1#4).toNat ≤ 32 ∧
    (2047 : Fin 2048).val = ((31#8).toNat + 0) * 64 + ((56#8).toNat + 7) ∧
    (oneDot.byte (oneDot.i.toNat + 0)).toNat / 2 ^ (7 - 0) % 2 = 1 ∧
    (oneDot.byte (oneDot.i.toNat + 0)).toNat / 2 ^ (7 - 7) % 2 = 0 := by decide

theorem witness_DrawPastMemoryFaults :
    0 < (2#4).toNat ∧ 4096 ≤ (withRegs [] 0xFFF#16).i.toNat + (2#4).toNat - 1 := by decide

theorem witness_DrawingTwiceRestoresTheDisplay :
    (0 : RegIx) ≠ 15 ∧ (1 : RegIx) ≠ 15 ∧ oneDot.i.toNat + (1#4).toNat - 1 < 4096 ∧ SpriteCovers oneDot 0 0 1 0 ∧
    readCell oneDot.disp 0 = false ∧ readCell { oneDot with disp := lighted [0] }.disp 0 = true :=
  ⟨by decide, by decide, by decide, oneDot_covers, by decide, by decide⟩

theorem witness_SecondDrawCollidesWheneverTheSpriteReachesACell :
    (0 : RegIx) ≠ 15 ∧ (1 : RegIx) ≠ 15 ∧ oneDot.i.toNat + (1#4).toNat - 1 < 4096 ∧
    (∃ t u, exec (.drw 0 1 1#4) oneDot = .next t ∧ exec (.drw 0 1 1#4) t = .next u) ∧ SpriteCovers oneDot 0 0 1 0 :=
  ⟨by decide, by decide, by decide, ⟨_, _, rfl, rfl⟩, oneDot_covers⟩

theorem witness_NoStepWritesMemoryParametersOrKeys : ∃ t, step (placed 0x6A42) = .next t :=
  (exists_of_stepsTo _ (fun _ => true) (by decide)).imp fun _ h => h.1

theorem witness_OnlyLoadIndexAndAddIndexWriteI :
    ∃ t, step (placed 0xA123) = .next t ∧ t.i ≠ (placed 0xA123).i :=
  (exists_of_stepsTo _ (fun t => t.i != (placed 0xA123).i) (by decide)).imp fun _ h => ⟨h.1, by simpa using h.2⟩

theorem witness_OnlyCallsMoveTheStack : ∃ t, step (placed 0x2300) = .next t ∧ t.sp ≠ (placed 0x2300).sp :=
  (exists_of_stepsTo _ (fun t => t.sp != (placed 0x2300).sp) (by decide)).imp fun _ h => ⟨h.1, by simpa using h.2⟩

/-- The display of `oneDot` changes when it is drawn. -/
theorem witness_OnlyClearAndDrawWriteTheDisplay :
    ∃ t, step (oneDot.withFetchWord 16 0xD001) = .next t ∧
      ∃ k, readCell t.disp k ≠ readCell (oneDot.withFetchWord 16 0xD001).disp k :=
  (exists_of_stepsTo _ (fun t => readCell t.disp 0 != readCell (oneDot.withFetchWord 16 0xD001).disp 0)
    (by decide)).imp fun _ h => ⟨h.1, 0, by simpa using h.2⟩

theorem witness_RegistersAreWrittenByTheirTableRow :
    ∃ t, step (placed 0x6A42) = .next t ∧ t.readV 10 ≠ (placed 0x6A42).readV 10 :=
  (exists_of_stepsTo _ (fun t => t.readV 10 != (placed 0x6A42).readV 10) (by decide)).imp
    fun _ h => ⟨h.1, by simpa using h.2⟩

/-- A step that does not fault, and one that does. -/
theorem witness_PcFollowsTheTableOfPcChanges :
    (placed 0x3000).runsNext (.seImm 0 0#8) ∧ ({ s0 with sp := 16 }.withFetchWord 16 0x2300).runsNext (.call 0x300#12) :=
  ⟨⟨by decide, by decide, by decide, by decide⟩, ⟨by decide, by decide, by decide, by decide⟩⟩

theorem witness_ReportGrowsOnlyByUnrecognizedWords :
    (∃ t, step (placed 0x00EE) = .next t) ∧ (placed 0x00EE).runsNext (.unrecognized 0x00EE#16) :=
  ⟨(exists_of_stepsTo _ (fun _ => true) (by decide)).imp fun _ h => h.1, ⟨by decide, by decide, by decide, by decide⟩⟩

theorem witness_FaultsArePrecise :
    ∃ t f, { inFrame 1 with pc := 0xFFF#16 }.fault = none ∧ step { inFrame 1 with pc := 0xFFF#16 } = .next t ∧
      t.fault = some f :=
  let ⟨t, h, hf⟩ := exists_of_stepsTo { inFrame 1 with pc := 0xFFF#16 }
    (fun t => t.fault == some ⟨.fetchOutOfRange, 0xFFF#16, 0#16⟩) (by decide)
  ⟨t, _, rfl, h, by simpa using hf⟩

/-- Two states that differ, in the keys and a timer, with the same `readPart`. -/
theorem witness_UnreadStateInfluencesNothing :
    s0 ≠ { s0 with keys := Vector.replicate 16 true, dt := 9#8 } ∧
    s0.readPart = { s0 with keys := Vector.replicate 16 true, dt := 9#8 }.readPart :=
  ⟨fun h => absurd (congrArg State.dt h) (by decide), rfl⟩

theorem witness_DisplayOutputIsNonZeroExactlyWhereLit :
    s0.params.wf ∧ 0 < (inFrame 1).cyclesLeft ∧ s0.cyclesLeft = 0 ∧ readCell { s0 with disp := lighted [2047] }.disp 2047 = true ∧
    readCell s0.disp 2047 = false := by decide

theorem witness_KeyWriteChangesOnlyTheKeys : 0 < (inFrame 1).cyclesLeft ∧ s0.cyclesLeft = 0 := by decide

theorem witness_EveryStepKeepsTheInvariant : s0.Inv ∧ step s0 = .next (beginFrame s0) := ⟨s0_inv, rfl⟩

theorem witness_EveryRunGoesOnAndKeepsTheInvariant : s0.Inv := s0_inv

/-- X = 15: the first draw's VF, 1, moves the second's origin from column 0 to column 1, so cell 0 is covered by the
first alone. -/
theorem witness_TwoDrawsToggleTheCellsExactlyOneCovers :
    oneDot.i.toNat + (1#4).toNat - 1 < 4096 ∧
    (∃ k, SpriteCovers oneDot (oneDot.readV 15).toNat (oneDot.readV 0).toNat (1#4).toNat k ∧
      readCell { oneDot with disp := lighted [0] }.disp k = true) ∧
    (∀ k, SpriteCovers oneDot (oneDot.readV 0).toNat (oneDot.readV 0).toNat (1#4).toNat k →
      readCell oneDot.disp k = false) ∧
    (match exec (.drw 15 0 1#4) { oneDot with disp := lighted [0] } with
      | .next t => t.readV 15 == 1#8
      | .fault _ => false
      | .refused _ => false) = true ∧
    SpriteCovers oneDot 0 0 1 0 ∧ ¬ SpriteCovers oneDot 1 0 1 0 := by
  refine ⟨by decide, ⟨0, oneDot_covers, by decide⟩, fun k _ => readCell_clearDisp k, by decide, oneDot_covers, ?_⟩
  rintro ⟨r, c, -, hc, -, hl⟩
  have hl : (0 : Nat) = (0 + r) % 32 * 64 + (1 + c) % 64 := hl
  omega

/-- A step that records a fetch fault, and one that records a fault of a fetched word. -/
theorem witness_FaultRecordsHoldTheFetchedWord :
    (∃ t f, { inFrame 1 with pc := 0xFFF#16 }.fault = none ∧ step { inFrame 1 with pc := 0xFFF#16 } = .next t ∧
      t.fault = some f) ∧
    (∃ t, step ((withRegs [] 0xFF1#16).withFetchWord 16 0xFF65) = .next t ∧
      t.fault = some ⟨.loadOutOfRange, 0x200#16, 0xFF65#16⟩) ∧
    ((withRegs [] 0xFF1#16).withFetchWord 16 0xFF65).fault = none :=
  ⟨witness_FaultsArePrecise,
   (exists_of_stepsTo _ (fun t => t.fault == some ⟨.loadOutOfRange, 0x200#16, 0xFF65#16⟩) (by decide)).imp
     fun _ h => ⟨h.1, by simpa using h.2⟩, rfl⟩

end Sys2Proof.Tests
end

/-! PROOFS. The family of construction: what `construct` answers and what each element of its state reads as. -/

namespace Sys2Proof.Machine

/-- R117, R118: a ROM that fits constructs. -/
theorem construct_of_fits (p : Params) (keys : Vector Bool 16) (rom : List Byte) (h : rom.length ≤ 3584) :
    construct p keys rom = .next (constructed p keys rom) :=
  if_neg (Nat.not_lt.2 h)

/-- R38, R118: the ROM lies from 0x200 on; every other address reads as the memory that lists nothing. -/
theorem constructed_byte (p : Params) (keys : Vector Bool 16) (rom : List Byte) (h : rom.length ≤ 3584) (a : Nat) :
    (constructed p keys rom).byte a =
      if hr : 0x200 ≤ a ∧ a < 0x200 + rom.length then rom[a - 0x200]'(by omega)
      else Memory.unlisted p.font a :=
  Memory.read_writeRom p.font rom 0x200 [] (by omega) (Memory.wf_nil p.font) a

/-- R37: the font where an address of the font is unlisted. -/
theorem Memory.unlisted_of_font (font : Vector Byte 80) (a : Nat) (h : 0x050 ≤ a ∧ a ≤ 0x09F) :
    Memory.unlisted font a = font[a - 0x050]'(by omega) :=
  dif_pos ⟨h.1, Nat.lt_succ_of_le h.2⟩

/-- R36: zero fill outside the font. -/
theorem Memory.unlisted_of_not_font (font : Vector Byte 80) (a : Nat) (h : ¬ (0x050 ≤ a ∧ a ≤ 0x09F)) :
    Memory.unlisted font a = 0#8 :=
  dif_neg fun hf => h ⟨hf.1, Nat.le_of_lt_succ hf.2⟩

/-- The MEM row of R34: the font below the ROM, the two areas apart. -/
theorem constructed_byte_table (p : Params) (keys : Vector Bool 16) (rom : List Byte) (h : rom.length ≤ 3584)
    (a : Nat) :
    (constructed p keys rom).byte a =
      if hf : 0x050 ≤ a ∧ a ≤ 0x09F then p.font[a - 0x050]'(by omega)
      else if hr : 0x200 ≤ a ∧ a < 0x200 + rom.length then rom[a - 0x200]'(by omega)
      else 0#8 := by
  rw [constructed_byte p keys rom h a]
  by_cases hf : 0x050 ≤ a ∧ a ≤ 0x09F
  · have hr : ¬ (0x200 ≤ a ∧ a < 0x200 + rom.length) := by omega
    rw [dif_pos hf, dif_neg hr, Memory.unlisted_of_font p.font a hf]
  · rw [dif_neg hf, Memory.unlisted_of_not_font p.font a hf]

/-- The V row of R34. -/
@[simp] theorem constructed_readV (p : Params) (keys : Vector Bool 16) (rom : List Byte) (r : RegIx) :
    (constructed p keys rom).readV r = 0#8 :=
  Vector.getElem_replicate r.isLt

/-- The STACK row of R34. -/
theorem constructed_stack_getElem (p : Params) (keys : Vector Bool 16) (rom : List Byte) (k : Fin 16) :
    (constructed p keys rom).stack[k] = 0#16 :=
  Vector.getElem_replicate k.isLt

/-- Settles O2: the rows of R34 that are no literal of `constructed` have a lemma each. -/
theorem constructionBuildsTheResetTable : Obligations.ConstructionBuildsTheResetTable := by
  intro p keys rom h
  refine ⟨constructed p keys rom, construct_of_fits p keys rom h, ?mem, ?v, rfl, rfl, ?stack, rfl, rfl, rfl,
    ?disp, rfl, rfl, rfl, rfl⟩
  case mem => exact fun a _ => constructed_byte_table p keys rom h a
  case v => exact constructed_readV p keys rom
  case stack => exact constructed_stack_getElem p keys rom
  case disp => exact readCell_clearDisp

end Sys2Proof.Machine

/-! PROOFS. The family of encoding: each field of a word as a number. -/

namespace Sys2Proof

/-- A field from bit 0 needs no shift. -/
theorem bitField_zero_toNat (len : Nat) (w : Word) : (bitField 0 len w).toNat = w.toNat % 2 ^ len := by
  rw [bitField_toNat, pow_zero, Nat.div_one]

/-- R53: C is op[15:12]. A word has 16 bits, so nothing is cut off above. -/
theorem fieldsOf_c_toNat (w : Word) : (fieldsOf w).c.toNat = w.toNat / 4096 := by
  have hw : w.toNat / 4096 < 16 := Nat.div_lt_of_lt_mul w.isLt
  exact (bitField_toNat 12 4 w).trans (Nat.mod_eq_of_lt hw)

/-- R53: X is op[11:8]. -/
theorem fieldsOf_x_val (w : Word) : (fieldsOf w).x.val = w.toNat / 256 % 16 :=
  bitField_toNat 8 4 w

/-- R53: Y is op[7:4]. -/
theorem fieldsOf_y_val (w : Word) : (fieldsOf w).y.val = w.toNat / 16 % 16 :=
  bitField_toNat 4 4 w

/-- R53: N is op[3:0]. -/
theorem fieldsOf_n_toNat (w : Word) : (fieldsOf w).n.toNat = w.toNat % 16 :=
  bitField_zero_toNat 4 w

/-- R53: NN is op[7:0]. -/
theorem fieldsOf_nn_toNat (w : Word) : (fieldsOf w).nn.toNat = w.toNat % 256 :=
  bitField_zero_toNat 8 w

/-- R53: NNN is op[11:0]. -/
theorem fieldsOf_nnn_toNat (w : Word) : (fieldsOf w).nnn.toNat = w.toNat % 4096 :=
  bitField_zero_toNat 12 w

/-- R53: NN is Y above N. -/
theorem fieldsOf_nn_overlap (w : Word) :
    (fieldsOf w).nn.toNat = (fieldsOf w).y.val * 16 + (fieldsOf w).n.toNat := by
  rw [fieldsOf_nn_toNat, fieldsOf_y_val, fieldsOf_n_toNat]
  omega

/-- R53: NNN is X above NN. -/
theorem fieldsOf_nnn_overlap (w : Word) :
    (fieldsOf w).nnn.toNat = (fieldsOf w).x.val * 256 + (fieldsOf w).nn.toNat := by
  rw [fieldsOf_nnn_toNat, fieldsOf_x_val, fieldsOf_nn_toNat]
  omega

end Sys2Proof

namespace Sys2Proof.Machine

/-- Settles O9: each field as a number, and the two overlaps from those numbers. -/
theorem fieldsAreTheBitsOfTheWord : Obligations.FieldsAreTheBitsOfTheWord := fun w =>
  ⟨fieldsOf_c_toNat w, fieldsOf_x_val w, fieldsOf_y_val w, fieldsOf_n_toNat w, fieldsOf_nn_toNat w,
    fieldsOf_nnn_toNat w, rfl, fieldsOf_nn_overlap w, fieldsOf_nnn_overlap w⟩

end Sys2Proof.Machine

/-! PROOFS. The family of control transfer: which words the decoder gives a form, and what jumps and skips do to pc. -/

namespace Sys2Proof

/-! ### Masked words and fields -/

/-- The mask of a class alone tests C. -/
theorem mask_class_eq_iff (w val : Word) : w &&& 0xF000#16 = val ↔ (fieldsOf w).c.toNat * 4096 = val.toNat := by
  rw [← BitVec.toNat_inj, toNat_mask_class, fieldsOf_c_toNat]

/-- The mask of a class and a low nibble tests C and N. -/
theorem mask_class_low_nibble_eq_iff (w val : Word) :
    w &&& 0xF00F#16 = val ↔ (fieldsOf w).c.toNat * 4096 + (fieldsOf w).n.toNat = val.toNat := by
  rw [← BitVec.toNat_inj, toNat_mask_class_low_nibble, fieldsOf_c_toNat, fieldsOf_n_toNat]

/-- The mask of a class and a low byte tests C and NN. -/
theorem mask_class_low_byte_eq_iff (w val : Word) :
    w &&& 0xF0FF#16 = val ↔ (fieldsOf w).c.toNat * 4096 + (fieldsOf w).nn.toNat = val.toNat := by
  rw [← BitVec.toNat_inj, toNat_mask_class_low_byte, fieldsOf_c_toNat, fieldsOf_nn_toNat]

/-- R57, R58: the decoder answers an implemented instruction only for a word of its row. The split is the one of
`classify`: by class, then by the whole word, the low nibble or the low byte. -/
theorem mask_eq_of_decode_pattern (w : Word) (p : Pattern) (h : (decode w).pattern = some p) :
    w &&& p.mask = p.val := by
  unfold decode classify at h
  split at h
  case h_1 =>
    split at h
    case isTrue hraw =>
      cases h
      exact (mask_all w).trans hraw
    case isFalse => nomatch h
  case h_2 hc | h_3 hc | h_4 hc | h_5 hc | h_7 hc | h_8 hc | h_11 hc | h_12 hc =>
    cases h
    exact (mask_class_eq_iff w _).2 (by rw [hc]; rfl)
  case h_6 hc | h_10 hc =>
    split at h
    case isTrue hn =>
      cases h
      exact (mask_class_low_nibble_eq_iff w _).2 (by rw [hc, hn]; rfl)
    case isFalse => nomatch h
  case h_9 hc =>
    split at h
    case h_1 hn | h_2 hn | h_3 hn =>
      cases h
      exact (mask_class_low_nibble_eq_iff w _).2 (by rw [hc, hn]; rfl)
    case h_4 => nomatch h
  case h_13 hc =>
    split at h
    case h_1 hnn | h_2 hnn =>
      cases h
      exact (mask_class_low_byte_eq_iff w _).2 (by rw [hc, hnn]; rfl)
    case h_3 => nomatch h
  case h_14 => nomatch h

end Sys2Proof

namespace Sys2Proof.Machine

/-! ### Words of a form -/

/-- A form whose row tests the class alone has the words of that row if the class selects it. -/
theorem wordsOf_class (k : Nat) (val : Word) (form : Fields → Instr) (hval : k * 4096 = val.toNat)
    (hrow : ∀ f, (form f).pattern = some ⟨0xF000#16, val⟩)
    (hform : ∀ f : Fields, f.c.toNat = k → classify f = form f) : WordsOf 0xF000#16 val form := by
  intro w
  constructor
  · intro h
    have hc : (fieldsOf w).c.toNat * 4096 = val.toNat := (mask_class_eq_iff w val).1 h
    exact hform _ (by omega)
  · intro h
    exact mask_eq_of_decode_pattern w _ (h ▸ hrow (fieldsOf w))

/-- A form whose row tests the class and the low nibble has the words of that row if the two select it. -/
theorem wordsOf_class_low_nibble (k m : Nat) (val : Word) (form : Fields → Instr) (hm : m < 16)
    (hval : k * 4096 + m = val.toNat) (hrow : ∀ f, (form f).pattern = some ⟨0xF00F#16, val⟩)
    (hform : ∀ f : Fields, f.c.toNat = k → f.n.toNat = m → classify f = form f) : WordsOf 0xF00F#16 val form := by
  intro w
  constructor
  · intro h
    have hcn : (fieldsOf w).c.toNat * 4096 + (fieldsOf w).n.toNat = val.toNat :=
      (mask_class_low_nibble_eq_iff w val).1 h
    have hn : (fieldsOf w).n.toNat < 16 := (fieldsOf w).n.isLt
    exact hform _ (by omega) (by omega)
  · intro h
    exact mask_eq_of_decode_pattern w _ (h ▸ hrow (fieldsOf w))

/-- R72: the words of 1NNN. -/
theorem wordsOf_jp : WordsOf 0xF000#16 0x1000#16 (fun f => .jp f.nnn) :=
  wordsOf_class 1 _ _ rfl (fun _ => rfl) fun _ hc => by simp only [classify, hc]

/-- R74: the words of 3XNN. -/
theorem wordsOf_seImm : WordsOf 0xF000#16 0x3000#16 (fun f => .seImm f.x f.nn) :=
  wordsOf_class 3 _ _ rfl (fun _ => rfl) fun _ hc => by simp only [classify, hc]

/-- R75: the words of 4XNN. -/
theorem wordsOf_sneImm : WordsOf 0xF000#16 0x4000#16 (fun f => .sneImm f.x f.nn) :=
  wordsOf_class 4 _ _ rfl (fun _ => rfl) fun _ hc => by simp only [classify, hc]

/-- R76: the words of 5XY0. -/
theorem wordsOf_seReg : WordsOf 0xF00F#16 0x5000#16 (fun f => .seReg f.x f.y) :=
  wordsOf_class_low_nibble 5 0 _ _ (by decide) rfl (fun _ => rfl) fun f hc hn => by
    have hn : f.n = 0x0#4 := BitVec.eq_of_toNat_eq hn
    simp only [classify, hc, hn, if_true]

/-- R77: the words of 9XY0. -/
theorem wordsOf_sneReg : WordsOf 0xF00F#16 0x9000#16 (fun f => .sneReg f.x f.y) :=
  wordsOf_class_low_nibble 9 0 _ _ (by decide) rfl (fun _ => rfl) fun f hc hn => by
    have hn : f.n = 0x0#4 := BitVec.eq_of_toNat_eq hn
    simp only [classify, hc, hn, if_true]

/-! ### pc -/

/-- A write of pc alone leaves every other piece. -/
theorem changesOnly_pc (s : State) (a : Word) : ChangesOnly (· = .pc) s { s with pc := a } := by
  intro p hp
  cases p with
  | pc => exact absurd rfl hp
  | _ => rfl

/-- R55: the address of a jump, zero-extended, is the same number. -/
theorem addrOperand_toNat (nnn : Addr12) : (addrOperand nnn).toNat = nnn.toNat :=
  BitVec.toNat_setWidth_of_le (by decide)

/-- R71: a skip changes pc alone. -/
theorem skipIf_changesOnly_pc (c : Bool) (s : State) : ChangesOnly (· = .pc) s (skipIf c s) := by
  rw [skipIf_eq]
  exact changesOnly_pc s _

/-- R71: a skip adds 2 to pc, modulo 2^16, where its condition holds. -/
theorem skipIf_pc_toNat (c : Bool) (s : State) :
    (skipIf c s).pc.toNat = if c then (s.pc.toNat + 2) % 65536 else s.pc.toNat := by
  cases c with
  | true => exact BitVec.toNat_add s.pc 2#16
  | false => rfl

/-- An instruction that skips on `c` does what its rule says of the condition `P` that `c` decides (R71). -/
theorem exec_next_of_skipIf (i : Instr) (s : State) (c : Bool) (P : Prop) [Decidable P]
    (hexec : exec i s = .next (skipIf c s)) (hP : c = true ↔ P) :
    ∃ t, exec i s = .next t ∧ ChangesOnly (· = .pc) s t ∧
      t.pc.toNat = if P then (s.pc.toNat + 2) % 65536 else s.pc.toNat :=
  ⟨skipIf c s, hexec, skipIf_changesOnly_pc c s, by simp only [skipIf_pc_toNat, hP]⟩

/-- Settles O21: the words of the row, and a write of pc. -/
theorem jumpSetsPcToItsAddress : Obligations.JumpSetsPcToItsAddress :=
  ⟨wordsOf_jp, fun nnn s =>
    ⟨jumpTo (addrOperand nnn) s, rfl, addrOperand_toNat nnn, changesOnly_pc s (addrOperand nnn)⟩⟩

/-- Settles O24: the words of the four rows, and the one rule of a skip at each condition. -/
theorem skipsAddTwoExactlyWhenTheirConditionHolds : Obligations.SkipsAddTwoExactlyWhenTheirConditionHolds :=
  ⟨wordsOf_seImm, wordsOf_sneImm, wordsOf_seReg, wordsOf_sneReg, fun x y nn s =>
    ⟨exec_next_of_skipIf (.seImm x nn) s _ _ rfl beq_iff_eq,
      exec_next_of_skipIf (.sneImm x nn) s _ _ rfl bne_iff_ne,
      exec_next_of_skipIf (.seReg x y) s _ _ rfl beq_iff_eq,
      exec_next_of_skipIf (.sneReg x y) s _ _ rfl bne_iff_ne⟩⟩

end Sys2Proof.Machine

/-! PROOFS. The family of register loads and arithmetic: the words of 6XNN, 8XY0, 8XY2 and 8XY4, and the registers each
writes. -/

namespace Sys2Proof.Machine

/-! ### Words -/

/-- R78: the words of 6XNN. -/
theorem wordsOf_ldImm : WordsOf 0xF000#16 0x6000#16 (fun f => .ldImm f.x f.nn) :=
  wordsOf_class 6 _ _ rfl (fun _ => rfl) fun _ hc => by simp only [classify, hc]

/-- R80: the words of 8XY0. -/
theorem wordsOf_ldReg : WordsOf 0xF00F#16 0x8000#16 (fun f => .ldReg f.x f.y) :=
  wordsOf_class_low_nibble 8 0 _ _ (by decide) rfl (fun _ => rfl) fun _ hc hn => by simp only [classify, hc, hn]

/-- R81: the words of 8XY2. -/
theorem wordsOf_andReg : WordsOf 0xF00F#16 0x8002#16 (fun f => .andReg f.x f.y) :=
  wordsOf_class_low_nibble 8 2 _ _ (by decide) rfl (fun _ => rfl) fun _ hc hn => by simp only [classify, hc, hn]

/-- R82: the words of 8XY4. -/
theorem wordsOf_addReg : WordsOf 0xF00F#16 0x8004#16 (fun f => .addReg f.x f.y) :=
  wordsOf_class_low_nibble 8 4 _ _ (by decide) rfl (fun _ => rfl) fun _ hc hn => by simp only [classify, hc, hn]

/-! ### Writes of V registers -/

/-- A write of the V registers alone changes only the pieces `w` if every register outside `w` reads the same. -/
theorem changesOnly_v (w : Part → Prop) (s : State) (v : Vector Byte 16)
    (h : ∀ r, ¬ w (.v r) → { s with v := v }.readV r = s.readV r) : ChangesOnly w s { s with v := v } := by
  intro p hp
  cases p with
  | v r => exact h r hp
  | _ => rfl

/-- An instruction that writes `b` to V[X] and does nothing else (R78 to R81). -/
theorem exec_next_of_writeV (i : Instr) (s : State) (x : RegIx) (b : Byte) (hexec : exec i s = .next (s.writeV x b)) :
    ∃ t, exec i s = .next t ∧ t.readV x = b ∧ ChangesOnly (· = .v x) s t := by
  refine ⟨s.writeV x b, hexec, ?result, changesOnly_v _ s _ fun r hr => ?other⟩
  case result => rw [readV_writeV, if_pos rfl]
  case other =>
    have hne : r ≠ x := mt (congrArg Part.v) hr
    exact (readV_writeV s x r b).trans (if_neg hne)

/-- A write of V[X] and then of VF leaves every other register (R82). -/
theorem changesOnly_writeV_writeFlag (x : RegIx) (b : Byte) (c : Bool) (s : State) :
    ChangesOnly (fun p => p = .v x ∨ p = .v 15) s ((s.writeV x b).writeFlag c) := by
  refine changesOnly_v _ s _ fun r hr => ?_
  obtain ⟨hxr, hfr⟩ := not_or.1 hr
  have hx : r ≠ x := mt (congrArg Part.v) hxr
  have hf : r ≠ 15 := mt (congrArg Part.v) hfr
  calc ((s.writeV x b).writeFlag c).readV r
    _ = (s.writeV x b).readV r := (readV_writeFlag _ c r).trans (if_neg hf)
    _ = s.readV r := (readV_writeV s x r b).trans (if_neg hx)

/-- R79, R82: the low 8 bits of a sum are the sum modulo 256. -/
theorem wrappedSum_toNat (a b : Byte) : (wrappedSum a b).toNat = (a.toNat + b.toNat) % 256 :=
  BitVec.toNat_ofNat _ 8

/-- R82, R92: a flag as a number. -/
theorem flagValue_toNat (c : Bool) : (flagValue c).toNat = if c then 1 else 0 := by
  cases c <;> rfl

/-- R82: the carry of a sum. -/
theorem carryOf_iff (a b : Byte) : carryOf a b = true ↔ a.toNat + b.toNat > 255 := decide_eq_true_iff

/-- Settles O25: the words of the three rows, and the one rule of a write of V[X] for each result. -/
theorem loadCopyAndAndWriteOnlyTheirDestination : Obligations.LoadCopyAndAndWriteOnlyTheirDestination :=
  ⟨wordsOf_ldImm, wordsOf_ldReg, wordsOf_andReg, fun x y nn s =>
    ⟨exec_next_of_writeV (.ldImm x nn) s x nn rfl, exec_next_of_writeV (.ldReg x y) s x _ rfl,
      exec_next_of_writeV (.andReg x y) s x _ rfl⟩⟩

/-- Settles O27: the flag write comes last, so V[X] keeps the sum where X is not 15 and VF holds the carry always. -/
theorem addRegistersWritesTheSumThenTheCarry : Obligations.AddRegistersWritesTheSumThenTheCarry := by
  refine ⟨wordsOf_addReg, fun x y s => ⟨_, rfl, ?sum, ?carry, changesOnly_writeV_writeFlag x _ _ s⟩⟩
  case sum =>
    intro hx
    rw [readV_writeFlag, if_neg hx, readV_writeV, if_pos rfl, wrappedSum_toNat]
  case carry =>
    rw [readV_writeFlag, if_pos rfl, flagValue_toNat]
    simp only [carryOf_iff]

end Sys2Proof.Machine

/-! PROOFS. The family of the index load: the words of ANNN, and the one write of I. -/

namespace Sys2Proof.Machine

/-- R83: the words of ANNN. -/
theorem wordsOf_ldI : WordsOf 0xF000#16 0xA000#16 (fun f => .ldI f.nnn) :=
  wordsOf_class 10 _ _ rfl (fun _ => rfl) fun _ hc => by simp only [classify, hc]

/-- A write of I leaves every other piece. -/
theorem changesOnly_writeI (w : Word) (s : State) : ChangesOnly (· = .i) s (s.writeI w) := by
  intro p hp
  cases p with
  | i => exact absurd rfl hp
  | _ => rfl

/-- R83: ANNN writes its address to I in every state; no check comes before the write. -/
theorem exec_ldI (nnn : Addr12) (s : State) : exec (.ldI nnn) s = .next (s.writeI (addrOperand nnn)) := rfl

/-- Settles O28: the words of the row, and a write of I by the zero-extended address. -/
theorem loadIndexSetsI : Obligations.LoadIndexSetsI := by
  refine ⟨wordsOf_ldI, fun nnn s => ⟨s.writeI (addrOperand nnn), exec_ldI nnn s, ?index, ?frame⟩⟩
  case index => rw [writeI_i, addrOperand_toNat]
  case frame => exact changesOnly_writeI (addrOperand nnn) s

end Sys2Proof.Machine

/-! PROOFS. The family of reset: the two answers of the size check. -/

namespace Sys2Proof.Machine

/-- R117: an oversized ROM produces no state. -/
theorem construct_of_oversized (p : Params) (keys : Vector Bool 16) (rom : List Byte) (h : 3584 < rom.length) :
    construct p keys rom = .fault .sizeViolation :=
  if_pos h

/-- Settles O1: the branches of the size check have a lemma each. -/
theorem constructionFailsExactlyForAnOversizedRom : Obligations.ConstructionFailsExactlyForAnOversizedRom :=
  fun p keys rom =>
    ⟨construct_of_oversized p keys rom, fun h => ⟨constructed p keys rom, construct_of_fits p keys rom h⟩⟩

end Sys2Proof.Machine

/-! PROOFS. Encoding: each form's word as a number, decode and encode as inverses, and the row of a word. -/

namespace Sys2Proof

/-! ### Encode after decode -/

/-- R53, R63: encoding a decoded word gives the word. The split is the one of `classify`; in each case the fields put
together are the number of the word. -/
theorem encode_decode (w : Word) : encode (decode w) = w := by
  apply BitVec.eq_of_toNat_eq
  have hw := w.isLt
  have hc := fieldsOf_c_toNat w
  have hx := fieldsOf_x_val w
  have hy := fieldsOf_y_val w
  have hn := fieldsOf_n_toNat w
  have hnn := fieldsOf_nn_toNat w
  have hnnn := fieldsOf_nnn_toNat w
  unfold decode classify
  split
  case h_1 =>
    split
    case isTrue hraw => exact congrArg BitVec.toNat hraw.symm
    case isFalse => rfl
  case h_2 hk | h_3 hk | h_11 hk =>
    simp only [encode, toNat_class_addr, BitVec.reduceToNat]
    omega
  case h_4 hk | h_5 hk | h_7 hk | h_8 hk =>
    simp only [encode, toNat_class_reg_byte, BitVec.reduceToNat]
    omega
  case h_6 hk | h_10 hk =>
    split
    case isTrue hz =>
      rw [hz] at hn
      simp only [encode, toNat_nibbles, BitVec.reduceToNat] at hn ⊢
      omega
    case isFalse => rfl
  case h_9 hk =>
    split
    case h_1 hz | h_2 hz | h_3 hz =>
      simp only [encode, toNat_nibbles, BitVec.reduceToNat]
      omega
    case h_4 => rfl
  case h_12 hk =>
    simp only [encode, toNat_nibbles, BitVec.reduceToNat]
    omega
  case h_13 hk =>
    split
    case h_1 hz | h_2 hz =>
      simp only [encode, toNat_class_reg_byte, BitVec.reduceToNat]
      omega
    case h_3 => rfl
  case h_14 => rfl

/-- R69: an unrecognized instruction keeps the whole word it was decoded from. -/
theorem raw_eq_of_decode_unrecognized (w raw : Word) (h : decode w = .unrecognized raw) : raw = w := by
  have hw := encode_decode w
  rw [h] at hw
  exact hw

/-! ### Rows of R57's list -/

/-- Every row a constructor has is one of R57's list. -/
theorem Instr.pattern_mem (i : Instr) (p : Pattern) (h : i.pattern = some p) : p ∈ patterns := by
  cases i with
  | unrecognized raw => nomatch h
  | _ => cases h; decide

/-- The one constructor without a row. -/
theorem Instr.pattern_eq_none (i : Instr) (h : i.pattern = none) : ∃ raw, i = .unrecognized raw := by
  cases i with
  | unrecognized raw => exact ⟨raw, rfl⟩
  | _ => nomatch h

/-- The one check on a term: an unrecognized word is none of an implemented instruction. -/
theorem Instr.wf_iff (i : Instr) : i.wf = true ↔ ∀ raw, i = .unrecognized raw → isImplemented raw = false := by
  cases i with
  | unrecognized raw => simp [Instr.wf]
  | _ => simp [Instr.wf]

/-- R57: a word is no implemented instruction's exactly when it misses every row. -/
theorem isImplemented_eq_false_iff (w : Word) : isImplemented w = false ↔ ∀ p ∈ patterns, w &&& p.mask ≠ p.val := by
  simp [isImplemented, Pattern.matchesWord]

end Sys2Proof

namespace Sys2Proof.Machine

/-- A form whose row tests the class and the low byte has the words of that row if the two select it. -/
theorem wordsOf_class_low_byte (k m : Nat) (val : Word) (form : Fields → Instr) (hm : m < 256)
    (hval : k * 4096 + m = val.toNat) (hrow : ∀ f, (form f).pattern = some ⟨0xF0FF#16, val⟩)
    (hform : ∀ f : Fields, f.c.toNat = k → f.nn.toNat = m → classify f = form f) : WordsOf 0xF0FF#16 val form := by
  intro w
  constructor
  · intro h
    have hcn : (fieldsOf w).c.toNat * 4096 + (fieldsOf w).nn.toNat = val.toNat :=
      (mask_class_low_byte_eq_iff w val).1 h
    have hnn : (fieldsOf w).nn.toNat < 256 := (fieldsOf w).nn.isLt
    exact hform _ (by omega) (by omega)
  · intro h
    exact mask_eq_of_decode_pattern w _ (h ▸ hrow (fieldsOf w))

/-- R86: the one word of 00E0. -/
theorem wordsOf_cls : WordsOf 0xFFFF#16 0x00E0#16 (fun _ => .cls) := by
  intro w
  constructor
  · intro h
    have hw : w = 0x00E0#16 := (mask_all w).symm.trans h
    rw [hw]
    decide
  · intro h
    exact mask_eq_of_decode_pattern w ⟨0xFFFF#16, 0x00E0#16⟩ (h ▸ rfl)

/-- R73: the words of 2NNN. -/
theorem wordsOf_call : WordsOf 0xF000#16 0x2000#16 (fun f => .call f.nnn) :=
  wordsOf_class 2 _ _ rfl (fun _ => rfl) fun _ hc => by simp only [classify, hc]

/-- R79: the words of 7XNN. -/
theorem wordsOf_addImm : WordsOf 0xF000#16 0x7000#16 (fun f => .addImm f.x f.nn) :=
  wordsOf_class 7 _ _ rfl (fun _ => rfl) fun _ hc => by simp only [classify, hc]

/-- R87: the words of DXYN. -/
theorem wordsOf_drw : WordsOf 0xF000#16 0xD000#16 (fun f => .drw f.x f.y f.n) :=
  wordsOf_class 13 _ _ rfl (fun _ => rfl) fun _ hc => by simp only [classify, hc]

/-- R84: the words of FX1E. -/
theorem wordsOf_addI : WordsOf 0xF0FF#16 0xF01E#16 (fun f => .addI f.x) :=
  wordsOf_class_low_byte 15 0x1E _ _ (by decide) rfl (fun _ => rfl) fun _ hc hn => by simp only [classify, hc, hn]

/-- R85: the words of FX65. -/
theorem wordsOf_ldMem : WordsOf 0xF0FF#16 0xF065#16 (fun f => .ldMem f.x) :=
  wordsOf_class_low_byte 15 0x65 _ _ (by decide) rfl (fun _ => rfl) fun _ hc hn => by simp only [classify, hc, hn]

/-- A word of a form's row decodes to an instruction of that row. -/
theorem decode_pattern_of_wordsOf (mask val : Word) (form : Fields → Instr) (hwords : WordsOf mask val form)
    (hrow : ∀ f, (form f).pattern = some ⟨mask, val⟩) (w : Word) (h : w &&& mask = val) :
    (decode w).pattern = some ⟨mask, val⟩ := by
  rw [(hwords w).1 h]
  exact hrow (fieldsOf w)

/-- R57: a word that meets a row is classified to that row, one case per row of the list. -/
theorem decode_pattern_of_mask_eq (w : Word) : ∀ p ∈ patterns, w &&& p.mask = p.val → (decode w).pattern = some p := by
  simp only [patterns, List.forall_mem_cons, List.not_mem_nil, false_implies, implies_true, and_true]
  exact ⟨decode_pattern_of_wordsOf _ _ _ wordsOf_cls (fun _ => rfl) w,
    decode_pattern_of_wordsOf _ _ _ wordsOf_jp (fun _ => rfl) w,
    decode_pattern_of_wordsOf _ _ _ wordsOf_call (fun _ => rfl) w,
    decode_pattern_of_wordsOf _ _ _ wordsOf_seImm (fun _ => rfl) w,
    decode_pattern_of_wordsOf _ _ _ wordsOf_sneImm (fun _ => rfl) w,
    decode_pattern_of_wordsOf _ _ _ wordsOf_seReg (fun _ => rfl) w,
    decode_pattern_of_wordsOf _ _ _ wordsOf_ldImm (fun _ => rfl) w,
    decode_pattern_of_wordsOf _ _ _ wordsOf_addImm (fun _ => rfl) w,
    decode_pattern_of_wordsOf _ _ _ wordsOf_ldReg (fun _ => rfl) w,
    decode_pattern_of_wordsOf _ _ _ wordsOf_andReg (fun _ => rfl) w,
    decode_pattern_of_wordsOf _ _ _ wordsOf_addReg (fun _ => rfl) w,
    decode_pattern_of_wordsOf _ _ _ wordsOf_sneReg (fun _ => rfl) w,
    decode_pattern_of_wordsOf _ _ _ wordsOf_ldI (fun _ => rfl) w,
    decode_pattern_of_wordsOf _ _ _ wordsOf_drw (fun _ => rfl) w,
    decode_pattern_of_wordsOf _ _ _ wordsOf_addI (fun _ => rfl) w,
    decode_pattern_of_wordsOf _ _ _ wordsOf_ldMem (fun _ => rfl) w⟩

/-- R57, R69: a word is classified as unrecognized exactly when it misses every row. -/
theorem decode_eq_unrecognized_iff (w : Word) :
    decode w = .unrecognized w ↔ ∀ p ∈ patterns, w &&& p.mask ≠ p.val := by
  constructor
  · intro h p hp hm
    have hrow : (decode w).pattern = some p := decode_pattern_of_mask_eq w p hp hm
    rw [h] at hrow
    nomatch hrow
  · intro h
    cases hrow : (decode w).pattern with
    | some p => exact absurd (mask_eq_of_decode_pattern w p hrow) (h p ((decode w).pattern_mem p hrow))
    | none =>
      obtain ⟨raw, hraw⟩ := (decode w).pattern_eq_none hrow
      rw [hraw, raw_eq_of_decode_unrecognized w raw hraw]

/-- R54: every word decodes to a term that stands for a word. -/
theorem decode_wf (w : Word) : (decode w).wf = true := by
  refine (Instr.wf_iff _).2 fun raw h => ?_
  obtain rfl : raw = w := raw_eq_of_decode_unrecognized w raw h
  exact (isImplemented_eq_false_iff raw).2 ((decode_eq_unrecognized_iff raw).1 h)

/-! ### Decode after encode -/

/-- A class with NNN decodes to the form of its address. -/
theorem decode_class_addr (c : BitVec 4) (nnn : Addr12) (form : Addr12 → Instr)
    (hform : ∀ f : Fields, f.c = c → classify f = form f.nnn) : decode (c ++ nnn : Word) = form nnn := by
  obtain ⟨hc, hnnn⟩ := fieldsOf_class_addr c nnn
  rw [decode, hform _ hc, hnnn]

/-- A class with X and NN decodes to the form of its register and byte. -/
theorem decode_class_reg_byte (c : BitVec 4) (x : RegIx) (nn : Byte) (i : Instr)
    (hform : ∀ f : Fields, f.c = c → f.x = x → f.nn = nn → classify f = i) :
    decode (c ++ regNibble x ++ nn : Word) = i := by
  obtain ⟨hc, hx, hnn⟩ := fieldsOf_class_reg_byte c x nn
  exact hform _ hc hx hnn

/-- A class with X, Y and N decodes to the form of its registers and low nibble. -/
theorem decode_nibbles (c : BitVec 4) (x y : RegIx) (n : BitVec 4) (i : Instr)
    (hform : ∀ f : Fields, f.c = c → f.x = x → f.y = y → f.n = n → classify f = i) :
    decode (c ++ regNibble x ++ regNibble y ++ n : Word) = i := by
  rw [decode, fieldsOf_eq _ c x y n (toNat_nibbles c x y n)]
  exact hform _ rfl rfl rfl rfl

/-- R57, R63: decoding the word of a well-formed instruction gives the instruction. -/
theorem decode_encode (i : Instr) (h : i.wf = true) : decode (encode i) = i := by
  cases i with
  | cls => decide
  | jp nnn => exact decode_class_addr 0x1#4 nnn .jp fun f hc => by simp [classify, hc]
  | call nnn => exact decode_class_addr 0x2#4 nnn .call fun f hc => by simp [classify, hc]
  | ldI nnn => exact decode_class_addr 0xA#4 nnn .ldI fun f hc => by simp [classify, hc]
  | seImm x nn => exact decode_class_reg_byte 0x3#4 x nn _ fun f hc hx hn => by simp [classify, hc, hx, hn]
  | sneImm x nn => exact decode_class_reg_byte 0x4#4 x nn _ fun f hc hx hn => by simp [classify, hc, hx, hn]
  | ldImm x nn => exact decode_class_reg_byte 0x6#4 x nn _ fun f hc hx hn => by simp [classify, hc, hx, hn]
  | addImm x nn => exact decode_class_reg_byte 0x7#4 x nn _ fun f hc hx hn => by simp [classify, hc, hx, hn]
  | addI x => exact decode_class_reg_byte 0xF#4 x 0x1E#8 _ fun f hc hx hn => by simp [classify, hc, hx, hn]
  | ldMem x => exact decode_class_reg_byte 0xF#4 x 0x65#8 _ fun f hc hx hn => by simp [classify, hc, hx, hn]
  | seReg x y => exact decode_nibbles 0x5#4 x y 0x0#4 _ fun f hc hx hy hn => by simp [classify, hc, hx, hy, hn]
  | ldReg x y => exact decode_nibbles 0x8#4 x y 0x0#4 _ fun f hc hx hy hn => by simp [classify, hc, hx, hy, hn]
  | andReg x y => exact decode_nibbles 0x8#4 x y 0x2#4 _ fun f hc hx hy hn => by simp [classify, hc, hx, hy, hn]
  | addReg x y => exact decode_nibbles 0x8#4 x y 0x4#4 _ fun f hc hx hy hn => by simp [classify, hc, hx, hy, hn]
  | sneReg x y => exact decode_nibbles 0x9#4 x y 0x0#4 _ fun f hc hx hy hn => by simp [classify, hc, hx, hy, hn]
  | drw x y n => exact decode_nibbles 0xD#4 x y n _ fun f hc hx hy hn => by simp [classify, hc, hx, hy, hn]
  | unrecognized raw =>
    have hraw : isImplemented raw = false := (Instr.wf_iff _).1 h raw rfl
    exact (decode_eq_unrecognized_iff raw).2 ((isImplemented_eq_false_iff raw).1 hraw)

/-! ### Statements -/

/-- Settles O6: by `decode_encode`, one case per instruction. -/
theorem decodingAnEncodedInstructionGivesItBack : Obligations.DecodingAnEncodedInstructionGivesItBack :=
  decode_encode

/-- Settles O7: every word decodes to a well-formed term whose fields are the word's. -/
theorem encodingADecodedWordGivesItBack : Obligations.EncodingADecodedWordGivesItBack :=
  fun w => ⟨decode_wf w, encode_decode w⟩

/-- Settles O8: a row is met exactly where the decoder gives it, and none exactly where the word is unrecognized. -/
theorem classificationFollowsTheMaskAndMatchPairs : Obligations.ClassificationFollowsTheMaskAndMatchPairs :=
  fun w =>
    ⟨fun p hp => ⟨decode_pattern_of_mask_eq w p hp, mask_eq_of_decode_pattern w p⟩,
      (decode_eq_unrecognized_iff w).symm⟩

/-- Settles O10: each form by the number of its shape: class and address, class, register and byte, or four nibbles. -/
theorem encodingFollowsTheAssemblyWords : Obligations.EncodingFollowsTheAssemblyWords := by
  intro x y n nn nnn
  simp only [encode, toNat_class_addr, toNat_class_reg_byte, toNat_nibbles, BitVec.reduceToNat, true_and]
  omega

/-- Settles O11: sixteen fixed words, decoded. -/
theorem sampleWordsDecodeAsTheSpecWritesThem : Obligations.SampleWordsDecodeAsTheSpecWritesThem := by
  unfold Obligations.SampleWordsDecodeAsTheSpecWritesThem
  decide

end Sys2Proof.Machine

/-! PROOFS. Construction meets the invariant, the reset state among its results. -/

namespace Sys2Proof.Machine

/-- R34, R118: the invariant after construction; no stack entry is used, nothing is reported, and no fault recorded. -/
theorem constructed_inv (p : Params) (keys : Vector Bool 16) (rom : List Byte) (hp : p.wf) (h : rom.length ≤ 3584) :
    (constructed p keys rom).Inv where
  memory := Memory.wf_writeRom p.font rom 0x200 [] (by omega) (Memory.wf_nil p.font)
  pixelOn := hp
  pcBound := show (0x200#16).toNat ≤ 0x1002 by decide
  timers := ⟨rfl, rfl⟩
  stackFree k _ := constructed_stack_getElem p keys rom k
  stackUsed k hk := absurd hk (Nat.not_lt_zero k.val)
  reported _ hw := nomatch hw
  budget := Nat.zero_le _
  halted _ hf := nomatch hf

/-- The reset state is what R118 builds from the empty ROM. -/
theorem constructed_nil : constructed resetParams Config.keys [] = State.reset := rfl

/-- R6: PIXEL_ON of the reset state, 1 more than a number below 2^32 - 1, is not 0. -/
theorem resetParams_wf : resetParams.wf := by
  have hlt : Config.pixelOnLessOne.val < 4294967295 := Config.pixelOnLessOne.isLt
  intro h
  have hnat : (Config.pixelOnLessOne.val + 1) % 2 ^ 32 = 0 := congrArg BitVec.toNat h
  omega

/-- Settles O3: the empty ROM fits, and its construction is the reset state. -/
theorem resetStateIsConstructionFromTheEmptyRom : Obligations.ResetStateIsConstructionFromTheEmptyRom :=
  ⟨constructed_nil ▸ construct_of_fits resetParams Config.keys [] (Nat.zero_le _), rfl⟩

/-- Settles O4: the reset state is a construction. -/
theorem resetStateMeetsTheInvariant : Obligations.ResetStateMeetsTheInvariant := by
  unfold Obligations.ResetStateMeetsTheInvariant
  rw [← constructed_nil]
  exact constructed_inv resetParams Config.keys [] resetParams_wf (Nat.zero_le _)

/-- Settles O5: a ROM that fits constructs a state with the invariant. -/
theorem everyConstructedStateMeetsTheInvariant : Obligations.EveryConstructedStateMeetsTheInvariant :=
  fun p keys rom hp h => ⟨constructed p keys rom, construct_of_fits p keys rom h, constructed_inv p keys rom hp h⟩

end Sys2Proof.Machine

/-! PROOFS. What each instruction changes and what it leaves: the completed forms, and the faults. -/

namespace Sys2Proof.Machine

/-! ### Frames -/

theorem ChangesOnly.mono {w w' : Part → Prop} {s t : State} (h : ChangesOnly w s t) (hw : ∀ p, w p → w' p) :
    ChangesOnly w' s t := fun p hp => h p fun hwp => hp (hw p hwp)

/-- R97: a fault changes FAULT, pc and the frame driver's count. -/
theorem changesOnly_takeFault (code : FaultCode) (a op : Word) (s : State) :
    ChangesOnly (fun p => p = .fault ∨ p = .pc ∨ p = .cyclesLeft) s (takeFault code a op s) := by
  intro p hp
  cases p with
  | fault => exact absurd (.inl rfl) hp
  | pc => exact absurd (.inr (.inl rfl)) hp
  | cyclesLeft => exact absurd (.inr (.inr rfl)) hp
  | _ => rfl

/-- R97: a fault at pc leaves pc as well. -/
theorem changesOnly_takeFault_at_pc (code : FaultCode) (op : Word) (s : State) :
    ChangesOnly (fun p => p = .fault ∨ p = .cyclesLeft) s (takeFault code s.pc op s) := by
  intro p hp
  obtain ⟨hfault, hcycles⟩ := not_or.1 hp
  by_cases hpc : p = .pc
  · rw [hpc]
    rfl
  · exact changesOnly_takeFault code s.pc op s p (by simp only [hfault, hpc, hcycles, or_self, not_false_eq_true])

/-- R101: a report changes REPORT alone. -/
theorem changesOnly_reportWord (raw : Word) (s : State) : ChangesOnly (· = .report) s (reportWord raw s) := by
  intro p hp
  cases p with
  | report => exact absurd rfl hp
  | _ => rfl

/-- A write of the grid alone leaves every piece that is not a cell. -/
theorem changesOnly_disp (d : Disp) (s : State) : ChangesOnly (fun p => ∃ k, p = .cell k) s { s with disp := d } := by
  intro p hp
  cases p with
  | cell k => exact absurd ⟨k, rfl⟩ hp
  | _ => rfl

/-- R73: a push and a jump change one stack entry, SP and pc. -/
theorem changesOnly_push (s : State) (h : s.sp.val < 16) (k : Fin 16) (hk : s.sp.val = k.val) (w a : Word) :
    ChangesOnly (fun p => p = .stackEntry k ∨ p = .sp ∨ p = .pc) s
      { s with stack := s.stack.set s.sp.val w h, sp := ⟨s.sp.val + 1, by omega⟩, pc := a } := by
  intro p hp
  cases p with
  | stackEntry j =>
    have hne : s.sp.val ≠ j.val := fun e => hp (.inl (by rw [Fin.ext (hk.symm.trans e)]))
    exact Vector.getElem_set_ne h j.isLt hne
  | sp => exact absurd (.inr (.inl rfl)) hp
  | pc => exact absurd (.inr (.inr rfl)) hp
  | _ => rfl

/-! ### Faults of an instruction -/

/-- Instruction `i` meets the condition of a fault of R96 in `s`. -/
inductive Raises (s : State) : Instr → FaultCode → Prop where
  | load (x : RegIx) (h : 4096 ≤ s.i.toNat + x.val) : Raises s (.ldMem x) .loadOutOfRange
  | sprite (x y : RegIx) (n : BitVec 4) (hn : 0 < n.toNat) (h : 4096 ≤ s.i.toNat + n.toNat - 1) :
      Raises s (.drw x y n) .spriteOutOfRange
  | stack (nnn : Addr12) (h : s.sp.val = 16) : Raises s (.call nnn) .stackOverflow

/-- R73: a call that raises nothing has room on the stack. -/
theorem room_of_not_raises {s : State} {nnn : Addr12} (h : ¬ ∃ code, Raises s (.call nnn) code) : s.sp.val < 16 := by
  by_contra hfull
  exact h ⟨_, .stack nnn (by have := s.sp.isLt; omega)⟩

/-- R88: a draw that raises nothing has all its bytes in memory. -/
theorem spriteBytes_of_not_raises {s : State} {x y : RegIx} {n : BitVec 4} (h : ¬ ∃ code, Raises s (.drw x y n) code) :
    n.toNat = 0 ∨ s.i.toNat + n.toNat - 1 < 4096 := by
  by_contra hout
  exact h ⟨_, .sprite x y n (by omega) (by omega)⟩

/-- R85: a load that raises nothing has all its bytes in memory. -/
theorem loadBytes_of_not_raises {s : State} {x : RegIx} (h : ¬ ∃ code, Raises s (.ldMem x) code) :
    s.i.toNat + x.val < 4096 := by
  by_contra hout
  exact h ⟨_, .load x (by omega)⟩

/-- R73 below a full stack. -/
theorem exec_call_of_room (nnn : Addr12) (s : State) (h : s.sp.val < 16) :
    exec (.call nnn) s = .next { s with stack := s.stack.set s.sp.val s.pc h, sp := ⟨s.sp.val + 1, by omega⟩,
                                        pc := addrOperand nnn } := by
  have hpush := (push_eq_some s _ s.pc).2 ⟨h, rfl⟩
  simp only [exec, execCall, hpush]
  rfl

/-- R85 where the last address exists. -/
theorem exec_ldMem_of_inRange (x : RegIx) (s : State) (h : s.i.toNat + x.val < 4096) :
    exec (.ldMem x) s = .next { s with v := loadFrom s s.i.toNat (x.val + 1) s.v } :=
  if_pos ((inRange_iff _).2 h)

/-- R87 where every sprite byte exists. -/
theorem exec_drw_of_inRange (x y : RegIx) (n : BitVec 4) (s : State)
    (h : n.toNat = 0 ∨ s.i.toNat + n.toNat - 1 < 4096) :
    exec (.drw x y n) s =
      .next ({ s with disp := (drawSprite s (s.coord x) (s.coord y) n.toNat).1 }.writeFlag
        (drawSprite s (s.coord x) (s.coord y) n.toNat).2) :=
  if_pos ((spriteInRange_iff s n.toNat).2 h)

/-- R97: an instruction that meets a fault's condition raises that fault. -/
theorem exec_of_raises (s : State) (i : Instr) (code : FaultCode) (h : Raises s i code) :
    exec i s = raiseFault code i s := by
  cases h with
  | load x h => exact if_neg (mt (inRange_iff _).1 (Nat.not_lt.2 h))
  | sprite x y n hn h =>
    have hout : ¬ (n.toNat = 0 ∨ s.i.toNat + n.toNat - 1 < 4096) := by omega
    exact if_neg (mt (spriteInRange_iff s n.toNat).1 hout)
  | stack nnn h =>
    have hpush := (push_eq_none s s.pc).2 h
    simp only [exec, execCall, hpush]

/-- A raised fault: the record, pc at the instruction, the frame over, and nothing else (R97). -/
theorem exec_next_of_raises (s : State) (i : Instr) (code : FaultCode) (h : Raises s i code) :
    ∃ t, exec i s = .next t ∧ t.fault = some ⟨code, s.pc - 2#16, encode i⟩ ∧ t.pc = s.pc - 2#16 ∧ t.cyclesLeft = 0 ∧
      ChangesOnly (fun p => p = .fault ∨ p = .pc ∨ p = .cyclesLeft) s t :=
  ⟨_, exec_of_raises s i code h, rfl, rfl, rfl, changesOnly_takeFault code _ _ s⟩

/-- Settles O23: the condition of StackOverflow. -/
theorem callOnAFullStackFaults : Obligations.CallOnAFullStackFaults :=
  fun nnn s h => exec_next_of_raises s _ _ (.stack nnn h)

/-- Settles O31: the condition of LoadOutOfRange. -/
theorem loadPastMemoryFaults : Obligations.LoadPastMemoryFaults :=
  fun x s h => exec_next_of_raises s _ _ (.load x h)

/-- Settles O36: the condition of SpriteOutOfRange. -/
theorem drawPastMemoryFaults : Obligations.DrawPastMemoryFaults :=
  fun x y n s hn h => exec_next_of_raises s _ _ (.sprite x y n hn h)

/-! ### Call, addition, index, load, clear and report -/

/-- Settles O22: the push of the advanced pc, then the jump. -/
theorem callPushesTheAdvancedPcAndJumps : Obligations.CallPushesTheAdvancedPcAndJumps := by
  intro nnn s k hk
  have h : s.sp.val < 16 := hk ▸ k.isLt
  refine ⟨_, exec_call_of_room nnn s h, ?pushed, rfl, addrOperand_toNat nnn, changesOnly_push s h k hk _ _⟩
  case pushed => simp only [← hk, Fin.getElem_fin, Vector.getElem_set_self]

/-- Settles O26: one write of V[X], the sum's low 8 bits. -/
theorem addImmediateWrapsAndWritesNoFlag : Obligations.AddImmediateWrapsAndWritesNoFlag := by
  intro x nn s
  obtain ⟨t, ht, hsum, hframe⟩ := exec_next_of_writeV (.addImm x nn) s x (wrappedSum (s.readV x) nn) rfl
  exact ⟨t, ht, by rw [hsum, wrappedSum_toNat], hframe⟩

/-- R84: the zero-extended register as a number. -/
theorem wordOperand_toNat (s : State) (x : RegIx) : (s.wordOperand x).toNat = (s.readV x).toNat :=
  BitVec.toNat_setWidth_of_le (by decide)

/-- Settles O29: one write of I, the sum modulo 2^16. -/
theorem addToIndexWritesOnlyI : Obligations.AddToIndexWritesOnlyI := fun x s =>
  ⟨s.writeI (s.i + s.wordOperand x), rfl, by rw [writeI_i, BitVec.toNat_add, wordOperand_toNat],
    changesOnly_writeI _ s⟩

/-- R85: a register after the loop that loads V[0] to V[X]. -/
theorem readV_loadFrom (s : State) (x r : RegIx) :
    { s with v := loadFrom s s.i.toNat (x.val + 1) s.v }.readV r =
      if r ≤ x then s.byte (s.i.toNat + r.val) else s.readV r := by
  simp only [State.readV, Fin.getElem_fin, getElem_loadFrom, Nat.lt_succ_iff, Fin.le_def]

/-- R85: the loop writes V[0] to V[X] and nothing else. -/
theorem changesOnly_loadFrom (s : State) (x : RegIx) :
    ChangesOnly (fun p => ∃ k : RegIx, k ≤ x ∧ p = .v k) s
      { s with v := loadFrom s s.i.toNat (x.val + 1) s.v } :=
  changesOnly_v _ s _ fun r hr => by rw [readV_loadFrom, if_neg fun h => hr ⟨r, h, rfl⟩]

/-- Settles O30: the loop of R85, register by register. -/
theorem loadRegistersCopiesFromMemory : Obligations.LoadRegistersCopiesFromMemory := fun x s h =>
  ⟨_, exec_ldMem_of_inRange x s h, fun k hk => by rw [readV_loadFrom, if_pos hk], changesOnly_loadFrom s x⟩

/-- Settles O32: the clear grid. -/
theorem clearTurnsEveryCellOff : Obligations.ClearTurnsEveryCellOff := fun s =>
  ⟨{ s with disp := clearDisp }, rfl, readCell_clearDisp, changesOnly_disp clearDisp s⟩

/-- Settles O39: one append to REPORT. -/
theorem unrecognizedWordIsOnlyReported : Obligations.UnrecognizedWordIsOnlyReported := fun raw s =>
  ⟨reportWord raw s, rfl, rfl, changesOnly_reportWord raw s⟩

end Sys2Proof.Machine

/-! PROOFS. The sprite draw: one draw, two draws, and sprites on the grid. -/

namespace Sys2Proof.Machine

/-! ### One draw -/

/-- From `s` to `t` a sprite of `h` rows was drawn at (x, y): the covered cells are toggled, VF is the collision, and
nothing else changed (R87 to R92). -/
structure Draws (s t : State) (x y h : Nat) : Prop where
  toggled : ∀ k, SpriteCovers s x y h k → readCell t.disp k = !readCell s.disp k
  kept : ∀ k, ¬ SpriteCovers s x y h k → readCell t.disp k = readCell s.disp k
  collision : (∃ k, SpriteCovers s x y h k ∧ readCell s.disp k = true) → t.readV 15 = 1#8
  noCollision : (∀ k, SpriteCovers s x y h k → readCell s.disp k = false) → t.readV 15 = 0#8
  frame : ChangesOnly (fun p => p = .v 15 ∨ ∃ k, p = .cell k) s t

/-- A write of the grid and then of VF leaves every other piece. -/
theorem changesOnly_disp_writeFlag (s : State) (d : Disp) (c : Bool) :
    ChangesOnly (fun p => p = .v 15 ∨ ∃ k, p = .cell k) s ({ s with disp := d }.writeFlag c) := by
  intro p hp
  cases p with
  | v r =>
    have hr : r ≠ 15 := fun e => hp (.inl (congrArg Part.v e))
    exact (readV_writeFlag _ c r).trans (if_neg hr)
  | cell k => exact absurd (.inr ⟨k, rfl⟩) hp
  | _ => rfl

/-- The draw loop's grid and collision, written back, are a draw. -/
theorem draws_of_toggles (s : State) (x y h : Nat) (d : Disp × Bool)
    (ht : Toggles (SpriteCovers s x y h) (s.disp, false) d) :
    Draws s ({ s with disp := d.1 }.writeFlag d.2) x y h where
  toggled := ht.on
  kept := ht.off
  collision hlit := by
    have hd : d.2 = true := ht.collided.2 (.inr hlit)
    rw [readV_writeFlag, if_pos rfl, hd]
    rfl
  noCollision hoff := by
    have hd : d.2 = false := by
      refine Bool.eq_false_iff.2 fun hd => ?_
      obtain hfalse | ⟨k, hk, hlit⟩ := ht.collided.1 hd
      · nomatch hfalse
      · exact Bool.false_ne_true ((hoff k hk).symm.trans hlit)
    rw [readV_writeFlag, if_pos rfl, hd]
    rfl
  frame := changesOnly_disp_writeFlag s d.1 d.2

/-- R87: DXYN where every sprite byte exists is a draw at the origin its registers give. -/
theorem exec_drw_draws (x y : RegIx) (n : BitVec 4) (s : State) (h : n.toNat = 0 ∨ s.i.toNat + n.toNat - 1 < 4096) :
    ∃ t, exec (.drw x y n) s = .next t ∧ Draws s t (s.readV x).toNat (s.readV y).toNat n.toNat :=
  ⟨_, exec_drw_of_inRange x y n s h,
    draws_of_toggles s _ _ _ _ (drawSprite_toggles s _ _ n.toNat (by have := n.isLt; omega))⟩

/-- Settles O33: the clauses are those of a draw. -/
theorem drawXorsTheSpriteIntoTheDisplay : Obligations.DrawXorsTheSpriteIntoTheDisplay := by
  intro x y n s h
  obtain ⟨t, ht, hd⟩ := exec_drw_draws x y n s h
  exact ⟨t, ht, hd.toggled, hd.kept, hd.collision, hd.noCollision, hd.frame⟩

/-- A sprite without rows covers nothing (D10). -/
theorem not_spriteCovers_zero (s : State) (x y : Nat) (k : Fin 2048) : ¬ SpriteCovers s x y 0 k := by
  rintro ⟨r, -, hr, -⟩
  exact Nat.not_lt_zero r hr

/-- Settles O35: a draw that covers no cell. -/
theorem emptySpriteOnlyClearsTheFlag : Obligations.EmptySpriteOnlyClearsTheFlag := by
  intro x y s
  obtain ⟨t, ht, hd⟩ := exec_drw_draws x y 0#4 s (.inl rfl)
  refine ⟨t, ht, hd.noCollision fun k hk => absurd hk (not_spriteCovers_zero s _ _ k), fun p hp => ?_⟩
  by_cases hcell : ∃ k, p = .cell k
  · obtain ⟨k, rfl⟩ := hcell
    exact hd.kept k (not_spriteCovers_zero s _ _ k)
  · exact hd.frame p (not_or.2 ⟨hp, hcell⟩)

/-! ### A sprite on the grid -/

/-- On the grid a pixel lands on the cell of its column and row under either policy (R90). -/
theorem landsOn_of_onGrid (b : DrawBounds) (px py k : Nat) (hx : px < 64) (hy : py < 32) (hk : k = py * 64 + px) :
    LandsOn b px py k := by
  cases b with
  | wrap => simpa only [LandsOn, Nat.mod_eq_of_lt hx, Nat.mod_eq_of_lt hy] using hk
  | clip => exact ⟨hx, hy, hk⟩

/-- A bit of a byte as a binary digit of its number. -/
theorem getLsbD_iff_digit (b : Byte) (j : Nat) : b.getLsbD j = true ↔ b.toNat / 2 ^ j % 2 = 1 := by
  rw [← BitVec.testBit_toNat, Nat.testBit_eq_decide_div_mod_eq, decide_eq_true_iff]

/-- The cell a sprite's pixel lands on is covered exactly when that pixel's bit is on: no other pixel lands there. -/
theorem spriteCovers_iff_of_landsOn (s : State) (x y h r c : Nat) (k : Fin 2048) (hh : h ≤ 32) (hr : r < h) (hc : c < 8)
    (hk : LandsOn s.params.drawBounds (x + c) (y + r) k.val) :
    SpriteCovers s x y h k ↔ (s.byte (s.i.toNat + r)).getLsbD (7 - c) = true := by
  constructor
  · rintro ⟨r', c', hr', hc', hbit, hk'⟩
    obtain ⟨rfl, rfl⟩ :=
      LandsOn.unique s.params.drawBounds x y c' c r' r k.val hc' hc (by omega) (by omega) hk' hk
    exact hbit
  · exact fun hbit => ⟨r, c, hr, hc, hbit, hk⟩

/-- Settles O34: on the grid each pixel decides its own cell. -/
theorem onGridPixelsToggleAndReportCollisions : Obligations.OnGridPixelsToggleAndReportCollisions := by
  intro x y n s hmem hx hy
  obtain ⟨t, ht, hd⟩ := exec_drw_draws x y n s (by omega)
  refine ⟨t, ht, fun r c k hr hc hk => ?_⟩
  have hland : LandsOn s.params.drawBounds ((s.readV x).toNat + c) ((s.readV y).toNat + r) k.val :=
    landsOn_of_onGrid _ _ _ _ (by omega) (by omega) hk
  have hcover := spriteCovers_iff_of_landsOn s _ _ n.toNat r c k (by omega) hr hc hland
  rw [getLsbD_iff_digit] at hcover
  constructor
  · intro hon
    have hk := hcover.2 hon
    exact ⟨hd.toggled k hk, fun hlit => hd.collision ⟨k, hk, hlit⟩⟩
  · intro hoff
    exact hd.kept k fun hk => by have := hcover.1 hk; omega

/-! ### Two draws -/

/-- A draw leaves what a sprite covers: its bytes, I and DRAW_BOUNDS. -/
theorem Draws.spriteCovers_iff {s t : State} {x y h : Nat} (hd : Draws s t x y h) (x' y' h' : Nat) (k : Fin 2048) :
    SpriteCovers t x' y' h' k ↔ SpriteCovers s x' y' h' k := by
  have hi : t.i = s.i := hd.frame .i (by simp)
  have hp : t.params = s.params := hd.frame .params (by simp)
  have hb : ∀ a, t.byte a = s.byte a := fun a => hd.frame (.memory a) (by simp)
  simp only [SpriteCovers, hi, hp, hb]

/-- A draw writes no register but VF. -/
theorem Draws.readV_of_ne {s t : State} {x y h : Nat} (hd : Draws s t x y h) (r : RegIx) (hr : r ≠ 15) :
    t.readV r = s.readV r := hd.frame (.v r) (by simpa using hr)

/-- A draw repeated in range draws again, at the origin the registers give after the first. -/
theorem exec_drw_twice (x y : RegIx) (n : BitVec 4) (s : State) (h : n.toNat = 0 ∨ s.i.toNat + n.toNat - 1 < 4096) :
    ∃ t u, exec (.drw x y n) s = .next t ∧ exec (.drw x y n) t = .next u ∧
      Draws s t (s.readV x).toNat (s.readV y).toNat n.toNat ∧
      Draws t u (t.readV x).toNat (t.readV y).toNat n.toNat := by
  obtain ⟨t, ht, hst⟩ := exec_drw_draws x y n s h
  have hi : t.i = s.i := hst.frame .i (by simp)
  obtain ⟨u, hu, htu⟩ := exec_drw_draws x y n t (hi ▸ h)
  exact ⟨t, u, ht, hu, hst, htu⟩

/-- A cell after two draws: toggled exactly when one of the two covers it and the other does not. -/
theorem Draws.readCell_twice {s t u : State} {x y h x' y' : Nat} (hst : Draws s t x y h) (htu : Draws t u x' y' h)
    (k : Fin 2048) :
    ((SpriteCovers s x y h k ↔ SpriteCovers s x' y' h k) → readCell u.disp k = readCell s.disp k) ∧
    (¬ (SpriteCovers s x y h k ↔ SpriteCovers s x' y' h k) → readCell u.disp k = !readCell s.disp k) := by
  have hon : SpriteCovers s x' y' h k → readCell u.disp k = !readCell t.disp k := fun h2 =>
    htu.toggled k ((hst.spriteCovers_iff x' y' h k).2 h2)
  have hoff : ¬ SpriteCovers s x' y' h k → readCell u.disp k = readCell t.disp k := fun h2 =>
    htu.kept k (mt (hst.spriteCovers_iff x' y' h k).1 h2)
  by_cases h1 : SpriteCovers s x y h k
  · by_cases h2 : SpriteCovers s x' y' h k
    · simp [h1, h2, hon h2, hst.toggled k h1]
    · simp [h1, h2, hoff h2, hst.toggled k h1]
  · by_cases h2 : SpriteCovers s x' y' h k
    · simp [h1, h2, hon h2, hst.kept k h1]
    · simp [h1, h2, hoff h2, hst.kept k h1]

/-- Settles O53: two draws cell by cell. -/
theorem twoDrawsToggleTheCellsExactlyOneCovers : Obligations.TwoDrawsToggleTheCellsExactlyOneCovers := by
  intro x y n s h
  obtain ⟨t, u, ht, hu, hst, htu⟩ := exec_drw_twice x y n s h
  exact ⟨t, u, ht, hu, hst.readV_of_ne, hst.collision, hst.noCollision, hst.readCell_twice htu⟩

/-- Settles O37: the origin stays, so both draws cover the same cells, and the second meets them toggled. -/
theorem drawingTwiceRestoresTheDisplay : Obligations.DrawingTwiceRestoresTheDisplay := by
  intro x y n s hx hy h
  obtain ⟨t, u, ht, hu, hst, htu⟩ := exec_drw_twice x y n s h
  rw [hst.readV_of_ne x hx, hst.readV_of_ne y hy] at htu
  refine ⟨t, u, ht, hu, fun k => (hst.readCell_twice htu k).1 Iff.rfl, ?collision, ?noCollision⟩
  case collision =>
    rintro ⟨k, hk, hoff⟩
    exact htu.collision ⟨k, (hst.spriteCovers_iff _ _ _ k).2 hk, by rw [hst.toggled k hk, hoff]; rfl⟩
  case noCollision =>
    intro hlit
    refine htu.noCollision fun k hk => ?_
    have hk := (hst.spriteCovers_iff _ _ _ k).1 hk
    rw [hst.toggled k hk, hlit k hk]
    rfl

/-- The one-dot sprite 0x80 at MEM[I], above a display on which the dot's own cell alone is lit. -/
def litDot : State :=
  { constructed { ipf := 1, drawBounds := .wrap, font := defaultFont, pixelOn := 1#32 } (Vector.replicate 16 false)
      [0x80#8] with
    i := 0x200#16, disp := writeCell clearDisp 0 true }

/-- The dot reaches cell 0 from the origin (0, 0). -/
theorem litDot_covers : SpriteCovers litDot 0 0 1 0 :=
  ⟨0, 0, Nat.one_pos, by decide, by decide, rfl⟩

/-- Refutes O38: `litDot` drawn twice. The first draw turns the lit cell off, the second turns it on, and a cell turned on
is no collision. -/
theorem not_secondDrawCollidesWheneverTheSpriteReachesACell :
    ¬ Obligations.SecondDrawCollidesWheneverTheSpriteReachesACell := by
  intro h
  have hflag := h 0 1 1#4 litDot _ _ (by decide) (by decide) (by decide) rfl rfl ⟨0, litDot_covers⟩
  exact absurd hflag (by decide)

end Sys2Proof.Machine

/-! PROOFS. Fetch and dispatch: the word a step runs, the faults it records, and what a cycle never writes. -/

namespace Sys2Proof

/-! ### The fetched word -/

/-- R42: the high byte stands before the low byte. -/
theorem wordOfBytes_toNat (hi lo : Byte) : (wordOfBytes hi lo).toNat = 256 * hi.toNat + lo.toNat := by
  rw [wordOfBytes, BitVec.toNat_append, ← Nat.shiftLeft_add_eq_or_of_lt lo.isLt, Nat.shiftLeft_eq, Nat.mul_comm]

/-- R42: a word is put together again from its two bytes. -/
theorem wordOfBytes_highByte_lowByte (w : Word) : wordOfBytes (highByte w) (lowByte w) = w := by
  apply BitVec.eq_of_toNat_eq
  have hw := w.isLt
  rw [wordOfBytes_toNat, highByte, lowByte, bitField_toNat, bitField_zero_toNat]
  omega

/-- A word of the opcode table is the word of its number. -/
theorem tableWord_of_lt (w : Nat) (h : w < 65536) : tableWord 16 w = BitVec.ofNat 16 w := by
  rw [tableWord, Nat.mod_eq_of_lt (show w < 2 ^ 16 from h)]

end Sys2Proof

namespace Sys2Proof.Machine

/-! ### The step inside a frame -/

/-- A step inside a frame runs the fetched word with pc advanced and one cycle spent (R64 to R68). -/
theorem step_of_fetch_some (s : State) (n : Nat) (w : Word) (hf : s.fault = none) (hc : s.cyclesLeft = n + 1)
    (hw : fetch s = some w) : step s = exec (decode w) (advancePc (s.withCyclesLeft n)) := by
  rw [step_of_inside s n hf hc]
  exact cycle_of_fetch_some _ w hf ((fetch_congr s _ rfl rfl rfl).trans hw)

/-- A step inside a frame whose fetch fails records the fetch fault at pc (R65, R96). -/
theorem step_of_fetch_none (s : State) (hf : s.fault = none) (hc : 0 < s.cyclesLeft) (hw : fetch s = none) :
    step s = .next (takeFault .fetchOutOfRange s.pc 0#16 s) := by
  obtain ⟨n, hn⟩ : ∃ n, s.cyclesLeft = n + 1 := ⟨s.cyclesLeft - 1, by omega⟩
  rw [step_of_inside s n hf hn]
  exact cycle_of_fetch_none _ hf ((fetch_congr s _ rfl rfl rfl).trans hw)

/-- Settles O12: the fetched word by its number, and the dispatch of it. -/
theorem stepRunsTheDecodedInstruction : Obligations.StepRunsTheDecodedInstruction := fun s n hf hc hpc =>
  ⟨_, wordOfBytes_toNat _ _, step_of_fetch_some s n _ hf hc ((fetch_eq_some s _).2 ⟨hpc, rfl⟩)⟩

/-- Settles O14: the fetch fails past memory, and its fault is taken at pc. -/
theorem fetchPastMemoryFaultsPrecisely : Obligations.FetchPastMemoryFaultsPrecisely := fun s hf hc hpc =>
  ⟨_, step_of_fetch_none s hf hc ((fetch_eq_none s).2 hpc), rfl, rfl, changesOnly_takeFault_at_pc _ _ s⟩

/-- A word whose two bytes were written at pc is the word fetched (R42, R65). -/
theorem fetch_of_writeByte_twice (s : State) (w : Word) (hpc : s.pc.toNat + 1 < 4096)
    (hm : Memory.wf s.params.font s.mem = true) :
    fetch ((s.writeByte s.pc.toNat (highByte w)).writeByte (s.pc.toNat + 1) (lowByte w)) = some w := by
  have hm' : Memory.wf s.params.font (s.writeByte s.pc.toNat (highByte w)).mem = true :=
    Memory.wf_write s.params.font s.mem _ _ (by omega) hm
  refine (fetch_eq_some _ w).2 ⟨hpc, ?_⟩
  simp only [writeByte_pc]
  rw [State.byte_writeByte _ _ _ _ hm', State.byte_writeByte _ _ _ _ hm', if_neg (by omega), if_pos rfl,
    State.byte_writeByte _ _ _ _ hm, if_pos rfl, wordOfBytes_highByte_lowByte]

/-- The pc of a placed word: one that an instruction can be fetched at (log 12). -/
theorem withFetchWord_pc_inRange (s : State) (nbits w : Nat) : (s.withFetchWord nbits w).pc.toNat + 1 < 4096 := by
  simp only [State.withFetchWord, writeByte_pc]
  split
  case isTrue h => exact (inRange_iff _).1 h
  case isFalse => decide

/-- A placed word is the one fetched next (log 12). -/
theorem fetch_withFetchWord (s : State) (nbits w : Nat) (hm : Memory.wf s.params.font s.mem = true) :
    fetch (s.withFetchWord nbits w) = some (tableWord nbits w) :=
  fetch_of_writeByte_twice { s with pc := (s.withFetchWord nbits w).pc, fault := none,
                                    cyclesLeft := (s.withFetchWord nbits w).cyclesLeft }
    (tableWord nbits w) (withFetchWord_pc_inRange s nbits w) hm

/-- A placed word has a cycle due to it (log 12). -/
theorem withFetchWord_cyclesLeft_pos (s : State) (nbits w : Nat) : 0 < (s.withFetchWord nbits w).cyclesLeft := by
  simp only [State.withFetchWord, writeByte_cyclesLeft]
  split
  case isTrue => exact Nat.one_pos
  case isFalse h => exact Nat.pos_of_ne_zero h

/-- Settles O13: the placed word is fetched, and a cycle is due. -/
theorem withFetchWordPlacesTheNextInstruction : Obligations.WithFetchWordPlacesTheNextInstruction := by
  intro s w hw hm
  have hfetch := fetch_withFetchWord s 16 w hm
  rw [tableWord_of_lt w hw] at hfetch
  have hpos := withFetchWord_cyclesLeft_pos s 16 w
  exact step_of_fetch_some (s.withFetchWord 16 w) ((s.withFetchWord 16 w).cyclesLeft - 1) _ rfl (by omega) hfetch

/-! ### What every cycle keeps -/

/-- What no cycle writes (R25, R40, R107), and the frame driver's count, which no cycle raises. -/
structure CycleKeeps (s t : State) : Prop where
  mem : t.mem = s.mem
  params : t.params = s.params
  keys : t.keys = s.keys
  dt : t.dt = s.dt
  st : t.st = s.st
  cyclesLeft : t.cyclesLeft ≤ s.cyclesLeft

theorem CycleKeeps.refl (s : State) : CycleKeeps s s := ⟨rfl, rfl, rfl, rfl, rfl, Nat.le_refl _⟩

theorem CycleKeeps.trans {s t u : State} (h : CycleKeeps s t) (h' : CycleKeeps t u) : CycleKeeps s u where
  mem := h'.mem.trans h.mem
  params := h'.params.trans h.params
  keys := h'.keys.trans h.keys
  dt := h'.dt.trans h.dt
  st := h'.st.trans h.st
  cyclesLeft := h'.cyclesLeft.trans h.cyclesLeft

theorem cycleKeeps_takeFault (code : FaultCode) (a op : Word) (s : State) :
    CycleKeeps s (takeFault code a op s) := ⟨rfl, rfl, rfl, rfl, rfl, Nat.zero_le _⟩

/-- An instruction that answers a next state answers one of the effects. -/
theorem effect_of_exec {i : Instr} {s t : State} (h : exec i s = .next t) : Effect i s t := by
  obtain ⟨t', ht', he⟩ := exec_effect i s
  obtain rfl : t' = t := Host.Outcome.next.inj (ht'.symm.trans h)
  exact he

theorem Effect.cycleKeeps {i : Instr} {s t : State} (h : Effect i s t) : CycleKeeps s t := by
  cases h with
  | toFault c => exact cycleKeeps_takeFault c _ _ s
  | _ => exact ⟨rfl, rfl, rfl, rfl, rfl, Nat.le_refl _⟩

/-- R25, R40, R107: a cycle keeps memory, parameters, keys and timers, whatever it runs. -/
theorem cycle_keeps (s t : State) (h : cycle s = .next t) : CycleKeeps s t := by
  cases hf : s.fault with
  | some f =>
    rw [cycle_of_halted s (by rw [hf]; rfl)] at h
    obtain rfl := Host.Outcome.next.inj h
    exact CycleKeeps.refl s
  | none =>
    cases hw : fetch s with
    | none =>
      rw [cycle_of_fetch_none s hf hw] at h
      obtain rfl := Host.Outcome.next.inj h
      exact cycleKeeps_takeFault _ _ _ s
    | some w =>
      rw [cycle_of_fetch_some s w hf hw] at h
      have hkeeps : CycleKeeps (advancePc s) t := (effect_of_exec h).cycleKeeps
      exact ⟨hkeeps.mem, hkeeps.params, hkeeps.keys, hkeeps.dt, hkeeps.st, hkeeps.cyclesLeft⟩

/-! ### Completing or raising a fault -/

/-- The instruction `i`, dispatched from `s`, completes in `t`: no fault is taken and no cycle given up, pc is the value
of R18's table, and the frame driver's count passes through it unread. -/
structure Completes (i : Instr) (s t : State) : Prop where
  fault : t.fault = s.fault
  cyclesLeft : t.cyclesLeft = s.cyclesLeft
  pc : t.pc = pcAfter s i
  recount : ∀ n, exec i (advancePc (s.withCyclesLeft n)) = .next (t.withCyclesLeft n)

/-- The conditions of the faults are about I and SP alone. -/
theorem Raises.congr {s t : State} {i : Instr} {code : FaultCode} (h : Raises s i code) (hi : t.i = s.i)
    (hsp : t.sp = s.sp) : Raises t i code := by
  cases h with
  | load x h => exact .load x (hi ▸ h)
  | sprite x y n hn h => exact .sprite x y n hn (hi ▸ h)
  | stack nnn h => exact .stack nnn (hsp ▸ h)

/-- The loop of FX65 depends on the bytes of memory alone. -/
theorem loadFrom_congr (s t : State) (h : ∀ a, t.byte a = s.byte a) (base n : Nat) (v : Vector Byte 16) :
    loadFrom t base n v = loadFrom s base n v := by
  induction n with
  | zero => rfl
  | succ n ih => simp only [loadFrom, ih, h]

/-- R71: a skip counts from the advanced pc. -/
theorem add_two_add_two (a : Word) : a + 2#16 + 2#16 = a + 4#16 := BitVec.add_assoc a 2#16 2#16

/-- A skip whose test decides the condition of R18's table completes. -/
theorem completes_of_skipIf (i : Instr) (s : State) (c : Bool)
    (hpc : pcAfter s i = if c then s.pc + 4#16 else s.pc + 2#16)
    (hexec : ∀ n, exec i (advancePc (s.withCyclesLeft n)) = .next (skipIf c (advancePc (s.withCyclesLeft n)))) :
    Completes i s (skipIf c (advancePc s)) := by
  rw [skipIf_eq]
  refine ⟨rfl, rfl, ?_, fun n => ?_⟩
  · simp only [hpc, advancePc_pc, add_two_add_two]
  · rw [hexec, skipIf_eq]
    rfl

/-- R68, R95: a dispatched instruction meets the condition of a fault or completes. -/
theorem dispatch_cases (i : Instr) (s : State) :
    (∃ code, Raises (advancePc s) i code) ∨ ∃ t, exec i (advancePc s) = .next t ∧ Completes i s t := by
  by_cases hr : ∃ code, Raises (advancePc s) i code
  · exact .inl hr
  refine .inr ?_
  cases i with
  | call nnn =>
    have hroom := room_of_not_raises hr
    exact ⟨_, exec_call_of_room nnn (advancePc s) hroom, rfl, rfl, rfl,
      fun n => exec_call_of_room nnn (advancePc (s.withCyclesLeft n)) hroom⟩
  | drw x y n =>
    have hin := spriteBytes_of_not_raises hr
    exact ⟨_, exec_drw_of_inRange x y n (advancePc s) hin, rfl, rfl, rfl,
      fun k => exec_drw_of_inRange x y n (advancePc (s.withCyclesLeft k)) hin⟩
  | ldMem x =>
    have hin := loadBytes_of_not_raises hr
    refine ⟨_, exec_ldMem_of_inRange x (advancePc s) hin, rfl, rfl, rfl, fun n => ?_⟩
    rw [exec_ldMem_of_inRange x (advancePc (s.withCyclesLeft n)) hin,
      loadFrom_congr (advancePc s) (advancePc (s.withCyclesLeft n)) fun _ => rfl]
    rfl
  | seImm x nn =>
    exact ⟨_, rfl, completes_of_skipIf _ s (s.readV x == nn) (by simp only [pcAfter, beq_iff_eq]) fun _ => rfl⟩
  | sneImm x nn =>
    exact ⟨_, rfl, completes_of_skipIf _ s (s.readV x != nn) (by simp only [pcAfter, bne_iff_ne]) fun _ => rfl⟩
  | seReg x y =>
    exact ⟨_, rfl, completes_of_skipIf _ s (s.readV x == s.readV y) (by simp only [pcAfter, beq_iff_eq]) fun _ => rfl⟩
  | sneReg x y =>
    exact ⟨_, rfl, completes_of_skipIf _ s (s.readV x != s.readV y) (by simp only [pcAfter, bne_iff_ne]) fun _ => rfl⟩
  | _ => exact ⟨_, rfl, rfl, rfl, rfl, fun _ => rfl⟩

/-- A raised fault of a dispatched instruction is taken at the pc the instruction was fetched from (R66, R97). -/
theorem dispatch_of_raises (i : Instr) (s : State) (code : FaultCode) (h : Raises (advancePc s) i code) :
    exec i (advancePc s) = .next (takeFault code s.pc (encode i) s) := by
  rw [exec_of_raises _ i code h, raiseFault, instrAddr_advancePc]
  rfl

end Sys2Proof.Machine

/-! PROOFS. The frame: its timers, its end, and its steps. -/

namespace Sys2Proof.Machine

/-! ### Every frame answers a next state -/

/-- R98: a frame of a halted engine does nothing. -/
theorem frame_of_halted (s : State) (h : s.fault.isSome = true) : frame s = .next s := if_pos h

/-- R108: a frame of a running engine counts the timers down and runs its cycles. -/
theorem frame_of_running (s : State) (h : s.fault = none) : frame s = runCycles s.params.ipf (tickTimers s) :=
  if_neg (by rw [h]; exact Bool.false_ne_true)

/-- R108: a cycle that faults ends the frame. -/
theorem runCycles_of_fault (n : Nat) (s t : State) (h : cycle s = .next t) (hf : t.fault.isSome = true) :
    runCycles (n + 1) s = .next t := by
  simp only [runCycles, h, hf, if_true]

/-- R108: after a cycle without a fault the frame goes on. -/
theorem runCycles_of_running (n : Nat) (s t : State) (h : cycle s = .next t) (hf : t.fault = none) :
    runCycles (n + 1) s = runCycles n t := by
  simp only [runCycles, h, hf, Option.isSome_none, Bool.false_eq_true, if_false]

/-- The cycles of a frame answer a next state, and keep what each of them keeps. -/
theorem runCycles_keeps (n : Nat) (s : State) : ∃ t, runCycles n s = .next t ∧ CycleKeeps s t := by
  induction n generalizing s with
  | zero => exact ⟨s, rfl, CycleKeeps.refl s⟩
  | succ n ih =>
    obtain ⟨u, hu⟩ := cycle_next s
    have hsu : CycleKeeps s u := cycle_keeps s u hu
    cases hf : u.fault with
    | some f => exact ⟨u, runCycles_of_fault n s u hu (by rw [hf]; rfl), hsu⟩
    | none =>
      obtain ⟨t, ht, hut⟩ := ih u
      exact ⟨t, (runCycles_of_running n s u hu hf).trans ht, hsu.trans hut⟩

/-- R109: every frame answers a next state. -/
theorem frame_next (s : State) : ∃ t, frame s = .next t := by
  cases hf : s.fault with
  | some f => exact ⟨s, frame_of_halted s (by rw [hf]; rfl)⟩
  | none =>
    obtain ⟨t, ht, -⟩ := runCycles_keeps s.params.ipf (tickTimers s)
    exact ⟨t, (frame_of_running s hf).trans ht⟩

/-- R95: every step answers a next state. -/
theorem step_next (s : State) : ∃ t, step s = .next t := by
  cases hf : s.fault with
  | some f => exact ⟨s, step_of_halted s (by rw [hf]; rfl)⟩
  | none =>
    cases hc : s.cyclesLeft with
    | zero => exact ⟨_, step_of_between s hf hc⟩
    | succ n =>
      rw [step_of_inside s n hf hc]
      exact cycle_next _

/-- Settles O20: steps and frames are bounded and stop nowhere. -/
theorem everyStepAndEveryFrameAnswersANextState : Obligations.EveryStepAndEveryFrameAnswersANextState :=
  fun s => ⟨step_next s, frame_next s⟩

/-- Settles O15: a halted engine's step, cycle and frame each do nothing. -/
theorem haltedEngineNeverChanges : Obligations.HaltedEngineNeverChanges := by
  intro s h
  have hs : s.fault.isSome = true := Option.isSome_iff_ne_none.2 h
  exact ⟨step_of_halted s hs, cycle_of_halted s hs, frame_of_halted s hs⟩

/-! ### Timers -/

/-- R105, R106: the countdown of one timer. -/
theorem countsDown_countDown (t : Byte) : CountsDown t (countDown t) := by
  unfold countDown
  split
  case isTrue h =>
    subst h
    exact ⟨fun h => absurd h (Nat.lt_irrefl 0), fun _ => rfl⟩
  case isFalse h =>
    have hpos : t.toNat ≠ 0 := fun e => h (BitVec.eq_of_toNat_eq e)
    have hlt : t.toNat < 256 := t.isLt
    refine ⟨fun _ => ?_, fun e => absurd e hpos⟩
    have hle : 1#8 ≤ t := BitVec.le_def.2 (show 1 ≤ t.toNat by omega)
    rw [BitVec.toNat_sub_of_le hle]
    exact Nat.sub_add_cancel (Nat.pos_of_ne_zero hpos)

/-- R108: the start of a frame changes the timers and the count. -/
theorem changesOnly_beginFrame (s : State) :
    ChangesOnly (fun p => p = .dt ∨ p = .st ∨ p = .cyclesLeft) s (beginFrame s) := by
  intro p hp
  cases p with
  | dt => exact absurd (.inl rfl) hp
  | st => exact absurd (.inr (.inl rfl)) hp
  | cyclesLeft => exact absurd (.inr (.inr rfl)) hp
  | _ => rfl

/-- R105, R106: counting the timers down changes nothing else. -/
theorem changesOnly_tickTimers (s : State) : ChangesOnly (fun p => p = .dt ∨ p = .st) s (tickTimers s) := by
  intro p hp
  cases p with
  | dt => exact absurd (.inl rfl) hp
  | st => exact absurd (.inr rfl) hp
  | _ => rfl

/-- Settles O16: the step that starts a frame counts once, and the frame's cycles keep what its start counted. -/
theorem eachFrameCountsBothTimersDownOnce : Obligations.EachFrameCountsBothTimersDownOnce := by
  intro s hf
  constructor
  · intro hc
    exact ⟨beginFrame s, step_of_between s hf hc, countsDown_countDown s.dt, countsDown_countDown s.st,
      changesOnly_beginFrame s⟩
  · obtain ⟨t, ht, hkeeps⟩ := runCycles_keeps s.params.ipf (tickTimers s)
    refine ⟨t, (frame_of_running s hf).trans ht, ?_, ?_⟩
    · exact hkeeps.dt ▸ countsDown_countDown s.dt
    · exact hkeeps.st ▸ countsDown_countDown s.st

/-- A step inside a frame keeps what a cycle keeps, and spends a cycle. -/
theorem step_inside_keeps (s t : State) (hf : s.fault = none) (hc : 0 < s.cyclesLeft) (h : step s = .next t) :
    CycleKeeps s t ∧ t.cyclesLeft < s.cyclesLeft := by
  obtain ⟨n, hn⟩ : ∃ n, s.cyclesLeft = n + 1 := ⟨s.cyclesLeft - 1, by omega⟩
  rw [step_of_inside s n hf hn] at h
  have hkeeps : CycleKeeps (s.withCyclesLeft n) t := cycle_keeps _ t h
  have hlt : t.cyclesLeft < s.cyclesLeft := by
    have : t.cyclesLeft ≤ n := hkeeps.cyclesLeft
    omega
  exact ⟨⟨hkeeps.mem, hkeeps.params, hkeeps.keys, hkeeps.dt, hkeeps.st, Nat.le_of_lt hlt⟩, hlt⟩

/-- Settles O17: the start of a frame sets the count; a cycle keeps the timers. -/
theorem timersMoveOnlyAtAFrameStart : Obligations.TimersMoveOnlyAtAFrameStart := by
  intro s hf
  constructor
  · intro hc
    exact ⟨beginFrame s, step_of_between s hf hc, rfl⟩
  · intro hc
    obtain ⟨t, ht⟩ := step_next s
    obtain ⟨hkeeps, hlt⟩ := step_inside_keeps s t hf hc ht
    exact ⟨t, ht, hkeeps.dt, hkeeps.st, hlt⟩

/-- Settles O19: no cycle follows the countdown. -/
theorem frameWithoutBudgetOnlyMovesTimers : Obligations.FrameWithoutBudgetOnlyMovesTimers := by
  intro s hipf
  cases hf : s.fault with
  | some f =>
    have hs : s.fault.isSome = true := by rw [hf]; rfl
    exact ⟨s, frame_of_halted s hs, fun p _ => by cases p <;> rfl⟩
  | none => exact ⟨tickTimers s, by rw [frame_of_running s hf, hipf]; rfl, changesOnly_tickTimers s⟩

/-! ### The steps of a frame -/

/-- A run whose first step answers `t` goes on from `t`. -/
theorem run_succ_of_step (k : Nat) (s t : State) (h : step s = .next t) :
    Sys2Proof.core.run (k + 1) s = Sys2Proof.core.run k t := by
  have hcore : Sys2Proof.core.step s = .next t := h
  simp only [Host.Core.run, hcore]

/-- R98: a halted engine stays as it is for any number of steps. -/
theorem run_of_halted (k : Nat) (s : State) (h : s.fault.isSome = true) : Sys2Proof.core.run k s = .next s := by
  induction k with
  | zero => rfl
  | succ k ih => rw [run_succ_of_step k s s (step_of_halted s h), ih]

/-- A cycle of a running engine outside a frame is the same cycle with any count: it faults with the same state, or it
completes and the count passes through. -/
theorem cycle_recount (s : State) (hf : s.fault = none) (hc : s.cyclesLeft = 0) (n : Nat) :
    ∃ t, cycle s = .next t ∧
      ((t.fault.isSome = true ∧ cycle (s.withCyclesLeft n) = .next t) ∨
       (t.fault = none ∧ t.cyclesLeft = 0 ∧ cycle (s.withCyclesLeft n) = .next (t.withCyclesLeft n))) := by
  have hfetch : fetch (s.withCyclesLeft n) = fetch s := fetch_congr s _ rfl rfl rfl
  cases hw : fetch s with
  | none =>
    exact ⟨_, cycle_of_fetch_none s hf hw, .inl ⟨rfl, cycle_of_fetch_none _ hf (hfetch.trans hw)⟩⟩
  | some w =>
    have hs : cycle s = exec (decode w) (advancePc s) := cycle_of_fetch_some s w hf hw
    have hn : cycle (s.withCyclesLeft n) = exec (decode w) (advancePc (s.withCyclesLeft n)) :=
      cycle_of_fetch_some _ w hf (hfetch.trans hw)
    rw [hs, hn]
    obtain ⟨code, hraise⟩ | ⟨t, ht, hdone⟩ := dispatch_cases (decode w) s
    · have hraise' : Raises (advancePc (s.withCyclesLeft n)) (decode w) code := hraise.congr rfl rfl
      exact ⟨_, dispatch_of_raises _ s code hraise, .inl ⟨rfl, dispatch_of_raises _ _ code hraise'⟩⟩
    · exact ⟨t, ht, .inr ⟨hdone.fault.trans hf, hdone.cyclesLeft.trans hc, hdone.recount n⟩⟩

/-- R108: from a frame with `n` cycles due, `n` steps are its `n` cycles. -/
theorem run_withCyclesLeft (n : Nat) (s : State) (hf : s.fault = none) (hc : s.cyclesLeft = 0) :
    Sys2Proof.core.run n (s.withCyclesLeft n) = runCycles n s := by
  induction n generalizing s with
  | zero => exact congrArg Host.Outcome.next (show s.withCyclesLeft 0 = s by rw [← hc]; rfl)
  | succ n ih =>
    have hstep : step (s.withCyclesLeft (n + 1)) = cycle (s.withCyclesLeft n) := step_of_inside _ n hf rfl
    obtain ⟨t, ht, ⟨htf, hcyc⟩ | ⟨htf, htc, hcyc⟩⟩ := cycle_recount s hf hc n
    · rw [run_succ_of_step n _ _ (hstep.trans hcyc), runCycles_of_fault n s t ht htf]
      exact run_of_halted n t htf
    · rw [run_succ_of_step n _ _ (hstep.trans hcyc), ih t htf htc, runCycles_of_running n s t ht htf]

/-- Settles O18: the first step starts the frame, and the IPF steps after it are its cycles. -/
theorem stepsOfAFrameAreTheFrameRule : Obligations.StepsOfAFrameAreTheFrameRule := by
  intro s hc
  cases hf : s.fault with
  | some f =>
    have hs : s.fault.isSome = true := by rw [hf]; rfl
    exact (run_of_halted _ s hs).trans (frame_of_halted s hs).symm
  | none =>
    have hcycles : Sys2Proof.core.run s.params.ipf (beginFrame s) = runCycles s.params.ipf (tickTimers s) :=
      run_withCyclesLeft s.params.ipf (tickTimers s) hf hc
    rw [run_succ_of_step _ s _ (step_of_between s hf hc), hcycles, frame_of_running s hf]

end Sys2Proof.Machine

/-! PROOFS. Rules of the whole machine: what a step runs, and which pieces each instruction may write. -/

namespace Sys2Proof.Machine

/-! ### What a step runs -/

/-- What a step can do, with the instruction it runs by name: nothing when halted; the start of a frame; a fetch fault;
or the instruction fetched at pc. -/
theorem step_runs (s t : State) (h : step s = .next t) :
    (s.fault.isSome = true ∧ t = s) ∨
    (s.fault = none ∧ s.cyclesLeft = 0 ∧ t = beginFrame s) ∨
    (s.fault = none ∧ 0 < s.cyclesLeft ∧ 4096 ≤ s.pc.toNat + 1 ∧ t = takeFault .fetchOutOfRange s.pc 0#16 s) ∨
    (∃ i n, s.runsNext i ∧ s.cyclesLeft = n + 1 ∧ exec i (advancePc (s.withCyclesLeft n)) = .next t) := by
  obtain hhalted | hbegin | ⟨n, hf, hc, hpc, ht⟩ | ⟨n, w, hf, hc, hpc, hw, ht⟩ := step_cases s t h
  · exact .inl hhalted
  · exact .inr (.inl hbegin)
  · exact .inr (.inr (.inl ⟨hf, by omega, hpc, ht⟩))
  · exact .inr (.inr (.inr ⟨decode w, n, ⟨hf, by omega, hpc, by rw [hw]⟩, hc, ht⟩))

/-- The step of a state that runs `i`: `i`, dispatched with one cycle spent. -/
theorem step_of_runsNext (s : State) (i : Instr) (h : s.runsNext i) :
    ∃ n, s.cyclesLeft = n + 1 ∧ step s = exec i (advancePc (s.withCyclesLeft n)) := by
  obtain ⟨hf, hc, hpc, hi⟩ := h
  obtain ⟨n, hn⟩ : ∃ n, s.cyclesLeft = n + 1 := ⟨s.cyclesLeft - 1, by omega⟩
  exact ⟨n, hn, hi ▸ step_of_fetch_some s n _ hf hn ((fetch_eq_some s _).2 ⟨hpc, rfl⟩)⟩

/-- The instruction run is the meaning of the word at pc. -/
theorem decode_of_runsNext {s : State} {i : Instr} (h : s.runsNext i) :
    decode (wordOfBytes (s.byte s.pc.toNat) (s.byte (s.pc.toNat + 1))) = i := by
  obtain ⟨-, -, -, hi⟩ := h
  exact hi

/-- One word has one meaning, so a state runs one instruction. -/
theorem runsNext_unique {s : State} {i j : Instr} (hi : s.runsNext i) (hj : s.runsNext j) : i = j :=
  (decode_of_runsNext hi).symm.trans (decode_of_runsNext hj)

/-- The instruction run stands for a word. -/
theorem wf_of_runsNext {s : State} {i : Instr} (h : s.runsNext i) : i.wf = true :=
  decode_of_runsNext h ▸ decode_wf _

/-- The word of the instruction run is the one at pc. -/
theorem encode_of_runsNext {s : State} {i : Instr} (h : s.runsNext i) :
    encode i = wordOfBytes (s.byte s.pc.toNat) (s.byte (s.pc.toNat + 1)) := by
  rw [← decode_of_runsNext h, encode_decode]

/-- A step that runs no instruction: the engine is halted, between frames, or past memory. -/
theorem not_runsNext (s : State) (i : Instr)
    (h : s.fault.isSome = true ∨ s.cyclesLeft = 0 ∨ 4096 ≤ s.pc.toNat + 1) : ¬ s.runsNext i := by
  rintro ⟨hf, hc, hpc, -⟩
  obtain h | h | h := h
  · rw [hf] at h
    nomatch h
  · omega
  · omega

/-! ### The pieces an instruction may write -/

/-- The pieces of a state that an instruction may write, row by row of the register tables (R13 to R30); a fault writes
pc, FAULT and the frame driver's count besides. -/
def mayWritePart (i : Instr) : Part → Prop
  | .v r => mayWriteV i r
  | .i => (∃ nnn, i = .ldI nnn) ∨ ∃ x, i = .addI x
  | .pc => True
  | .stackEntry _ => ∃ nnn, i = .call nnn
  | .sp => ∃ nnn, i = .call nnn
  | .dt => False
  | .st => False
  | .cell _ => i = .cls ∨ ∃ x y n, i = .drw x y n
  | .memory _ => False
  | .key _ => False
  | .params => False
  | .fault => True
  | .report => ∃ raw, i = .unrecognized raw
  | .cyclesLeft => True

/-- A skip is a write of pc. -/
theorem changesOnly_skipIf_mayWrite (i : Instr) (c : Bool) (s : State) : ChangesOnly (mayWritePart i) s (skipIf c s) :=
  (skipIf_changesOnly_pc c s).mono fun _ hp => hp ▸ trivial

/-- A write of V[X] that the table allows. -/
theorem changesOnly_writeV_mayWrite (i : Instr) (s : State) (x : RegIx) (b : Byte) (hx : mayWriteV i x) :
    ChangesOnly (mayWritePart i) s (s.writeV x b) := by
  refine changesOnly_v _ s _ fun r hr => ?_
  have hne : r ≠ x := fun e => hr (e ▸ hx)
  exact (readV_writeV s x r b).trans (if_neg hne)

/-- A fault writes what any instruction may write. -/
theorem changesOnly_raise_mayWrite (i : Instr) (s t : State) (code : FaultCode) (hr : Raises s i code)
    (h : exec i s = .next t) : ChangesOnly (mayWritePart i) s t := by
  obtain ⟨t', ht', -, -, -, hframe⟩ := exec_next_of_raises s i code hr
  obtain rfl : t' = t := Host.Outcome.next.inj (ht'.symm.trans h)
  refine hframe.mono fun p hp => ?_
  obtain rfl | rfl | rfl := hp <;> trivial

/-- R68: an instruction writes the pieces its rows of the tables name, and no other. -/
theorem exec_changesOnly (i : Instr) (s t : State) (h : exec i s = .next t) : ChangesOnly (mayWritePart i) s t := by
  by_cases hr : ∃ code, Raises s i code
  · obtain ⟨code, hr⟩ := hr
    exact changesOnly_raise_mayWrite i s t code hr h
  cases i with
  | cls =>
    obtain rfl := Host.Outcome.next.inj h
    exact (changesOnly_disp _ s).mono fun _ ⟨k, hk⟩ => hk ▸ .inl rfl
  | jp nnn =>
    obtain rfl := Host.Outcome.next.inj h
    exact (changesOnly_pc s _).mono fun _ hp => hp ▸ trivial
  | call nnn =>
    have hroom : s.sp.val < 16 := room_of_not_raises hr
    rw [exec_call_of_room nnn s hroom] at h
    obtain rfl := Host.Outcome.next.inj h
    refine (changesOnly_push s hroom ⟨s.sp.val, hroom⟩ rfl s.pc _).mono fun p hp => ?_
    obtain rfl | rfl | rfl := hp
    · exact ⟨nnn, rfl⟩
    · exact ⟨nnn, rfl⟩
    · trivial
  | seImm x nn | sneImm x nn | seReg x y | sneReg x y =>
    obtain rfl := Host.Outcome.next.inj h
    exact changesOnly_skipIf_mayWrite _ _ s
  | ldImm x nn | addImm x nn | ldReg x y | andReg x y =>
    obtain rfl := Host.Outcome.next.inj h
    exact changesOnly_writeV_mayWrite _ s x _ rfl
  | addReg x y =>
    obtain rfl := Host.Outcome.next.inj h
    refine (changesOnly_writeV_writeFlag x _ _ s).mono fun p hp => ?_
    obtain rfl | rfl := hp
    · exact .inl rfl
    · exact .inr rfl
  | ldI nnn =>
    obtain rfl := Host.Outcome.next.inj h
    exact (changesOnly_writeI _ s).mono fun _ hp => hp ▸ .inl ⟨nnn, rfl⟩
  | drw x y n =>
    have hin : n.toNat = 0 ∨ s.i.toNat + n.toNat - 1 < 4096 := spriteBytes_of_not_raises hr
    rw [exec_drw_of_inRange x y n s hin] at h
    obtain rfl := Host.Outcome.next.inj h
    refine (changesOnly_disp_writeFlag s _ _).mono fun p hp => ?_
    obtain rfl | ⟨k, rfl⟩ := hp
    · exact rfl
    · exact .inr ⟨x, y, n, rfl⟩
  | addI x =>
    obtain rfl := Host.Outcome.next.inj h
    exact (changesOnly_writeI _ s).mono fun _ hp => hp ▸ .inr ⟨x, rfl⟩
  | ldMem x =>
    have hin : s.i.toNat + x.val < 4096 := loadBytes_of_not_raises hr
    rw [exec_ldMem_of_inRange x s hin] at h
    obtain rfl := Host.Outcome.next.inj h
    exact (changesOnly_loadFrom s x).mono fun _ ⟨k, hk, hp⟩ => hp ▸ hk
  | unrecognized raw =>
    obtain rfl := Host.Outcome.next.inj h
    exact (changesOnly_reportWord raw s).mono fun _ hp => hp ▸ ⟨raw, rfl⟩

theorem Part.same_refl (p : Part) (s : State) : p.same s s := by cases p <;> rfl

/-- A piece that an instruction leaves is left by its step: the advance of pc and the spent cycle are pieces that any
instruction may write. -/
theorem Part.same_of_dispatched (p : Part) (i : Instr) (s t : State) (n : Nat) (hp : ¬ mayWritePart i p)
    (h : p.same (advancePc (s.withCyclesLeft n)) t) : p.same s t := by
  cases p with
  | pc => exact absurd trivial hp
  | cyclesLeft => exact absurd trivial hp
  | _ => exact h

/-- A piece that changes in a step, other than the frame driver's own and FAULT, is one that the instruction run may
write. -/
theorem exists_runsNext_of_changed (s t : State) (p : Part) (h : step s = .next t) (hp : ¬ p.same s t)
    (hdriver : ¬ (p = .dt ∨ p = .st ∨ p = .fault ∨ p = .cyclesLeft)) : ∃ i, s.runsNext i ∧ mayWritePart i p := by
  simp only [not_or] at hdriver
  obtain ⟨hdt, hst, hfault, hcycles⟩ := hdriver
  obtain ⟨-, rfl⟩ | ⟨-, -, rfl⟩ | ⟨-, -, -, rfl⟩ | ⟨i, n, hi, -, ht⟩ := step_runs s t h
  · exact absurd (p.same_refl _) hp
  · exact absurd (changesOnly_beginFrame s p (by simp [hdt, hst, hcycles])) hp
  · exact absurd (changesOnly_takeFault_at_pc _ _ s p (by simp [hfault, hcycles])) hp
  · refine ⟨i, hi, ?_⟩
    by_contra hno
    exact hp (p.same_of_dispatched i s t n hno (exec_changesOnly i _ t ht p hno))

/-- Settles O41: I is written by ANNN and FX1E alone. -/
theorem onlyLoadIndexAndAddIndexWriteI : Obligations.OnlyLoadIndexAndAddIndexWriteI := by
  intro s t h hne
  obtain ⟨i, hi, ⟨nnn, rfl⟩ | ⟨x, rfl⟩⟩ := exists_runsNext_of_changed s t .i h hne (by simp)
  · exact .inl ⟨nnn, hi⟩
  · exact .inr ⟨x, hi⟩

/-- Settles O43: a cell is written by 00E0 and DXYN alone. -/
theorem onlyClearAndDrawWriteTheDisplay : Obligations.OnlyClearAndDrawWriteTheDisplay := by
  rintro s t h ⟨k, hne⟩
  obtain ⟨i, hi, rfl | ⟨x, y, n, rfl⟩⟩ := exists_runsNext_of_changed s t (.cell k) h hne (by simp)
  · exact .inl hi
  · exact .inr ⟨x, y, n, hi⟩

/-- Settles O44: a V register is written by its rows alone. -/
theorem registersAreWrittenByTheirTableRow : Obligations.RegistersAreWrittenByTheirTableRow :=
  fun s t r h hne => exists_runsNext_of_changed s t (.v r) h hne (by simp)

/-- R25, R40: a step keeps memory, parameters and keys. -/
theorem step_keeps_memory_params_keys (s t : State) (h : step s = .next t) :
    t.mem = s.mem ∧ t.params = s.params ∧ t.keys = s.keys := by
  cases hf : s.fault with
  | some f =>
    rw [step_of_halted s (by rw [hf]; rfl)] at h
    obtain rfl := Host.Outcome.next.inj h
    exact ⟨rfl, rfl, rfl⟩
  | none =>
    obtain hc | hc := Nat.eq_zero_or_pos s.cyclesLeft
    · rw [step_of_between s hf hc] at h
      obtain rfl := Host.Outcome.next.inj h
      exact ⟨rfl, rfl, rfl⟩
    · obtain ⟨hkeeps, -⟩ := step_inside_keeps s t hf hc h
      exact ⟨hkeeps.mem, hkeeps.params, hkeeps.keys⟩

/-- Settles O40: memory as a list, and so byte by byte. -/
theorem noStepWritesMemoryParametersOrKeys : Obligations.NoStepWritesMemoryParametersOrKeys := by
  intro s t h
  obtain ⟨hmem, hparams, hkeys⟩ := step_keeps_memory_params_keys s t h
  exact ⟨hmem, State.byte_congr s t hmem hparams, hparams, hkeys⟩

/-! ### Stack and report -/

/-- Settles O42: of the effects one alone moves the stack, the push of 2NNN. -/
theorem onlyCallsMoveTheStack : Obligations.OnlyCallsMoveTheStack := by
  intro s t h
  obtain ⟨-, rfl⟩ | ⟨-, -, rfl⟩ | ⟨-, -, -, rfl⟩ | ⟨i, n, hi, -, ht⟩ := step_runs s t h
  · exact .inl ⟨rfl, rfl⟩
  · exact .inl ⟨rfl, rfl⟩
  · exact .inl ⟨rfl, rfl⟩
  · cases effect_of_exec ht with
    | toStack hroom nnn hcall =>
      refine .inr ⟨nnn, hcall ▸ hi, ⟨s.sp.val, hroom⟩, rfl, rfl, Vector.getElem_set_self hroom, fun j hj => ?_⟩
      have hne : s.sp.val ≠ j.val := fun e => hj (Fin.ext e.symm)
      exact Vector.getElem_set_ne hroom j.isLt hne
    | _ => exact .inl ⟨rfl, rfl⟩

/-- An instruction that is no unrecognized word reports nothing. -/
theorem Effect.report_eq {i : Instr} {s t : State} (h : Effect i s t) (hi : ∀ raw, i ≠ .unrecognized raw) :
    t.report = s.report := by
  cases h with
  | toReport raw hraw => exact absurd hraw (hi raw)
  | _ => rfl

/-- Settles O46: an unrecognized word's step appends it, any other step appends nothing. -/
theorem reportGrowsOnlyByUnrecognizedWords : Obligations.ReportGrowsOnlyByUnrecognizedWords := by
  intro s t h
  obtain ⟨hf, rfl⟩ | ⟨-, hc, rfl⟩ | ⟨-, -, hpc, rfl⟩ | ⟨i, n, hi, -, ht⟩ := step_runs s t h
  · exact .inl ⟨rfl, fun _ => not_runsNext _ _ (.inl hf)⟩
  · exact .inl ⟨rfl, fun _ => not_runsNext s _ (.inr (.inl hc))⟩
  · exact .inl ⟨rfl, fun _ => not_runsNext s _ (.inr (.inr hpc))⟩
  · by_cases hu : ∃ raw, i = .unrecognized raw
    · obtain ⟨raw, rfl⟩ := hu
      obtain rfl := Host.Outcome.next.inj ht
      exact .inr ⟨raw, hi, rfl⟩
    · rw [not_exists] at hu
      exact .inl ⟨(effect_of_exec ht).report_eq hu, fun raw hraw => hu raw (runsNext_unique hi hraw)⟩

/-! ### pc and faults -/

/-- The step that runs `i` takes a fault of `i` at pc, or completes. -/
theorem step_of_runsNext_cases (s : State) (i : Instr) (h : s.runsNext i) :
    (∃ code, Raises s i code ∧ step s = .next (takeFault code s.pc (encode i) s)) ∨
    (∃ n t, step s = .next t ∧ Completes i (s.withCyclesLeft n) t) := by
  obtain ⟨n, -, hstep⟩ := step_of_runsNext s i h
  rw [hstep]
  obtain ⟨code, hraise⟩ | ⟨t, ht, hdone⟩ := dispatch_cases i (s.withCyclesLeft n)
  · exact .inl ⟨code, hraise.congr rfl rfl, dispatch_of_raises i (s.withCyclesLeft n) code hraise⟩
  · exact .inr ⟨n, t, ht, hdone⟩

/-- R18's table reads pc and the registers alone. -/
theorem pcAfter_withCyclesLeft (s : State) (n : Nat) (i : Instr) : pcAfter (s.withCyclesLeft n) i = pcAfter s i := by
  cases i <;> rfl

/-- Settles O45: an instruction that completes leaves the table's pc, one that faults leaves A. -/
theorem pcFollowsTheTableOfPcChanges : Obligations.PcFollowsTheTableOfPcChanges := by
  intro s i hi
  obtain ⟨code, -, hstep⟩ | ⟨n, t, hstep, hdone⟩ := step_of_runsNext_cases s i hi
  · exact ⟨_, hstep, fun hnone => absurd hnone (Option.some_ne_none _), fun _ => rfl⟩
  · obtain ⟨hf, -⟩ := hi
    have hnone : t.fault = none := hdone.fault.trans hf
    exact ⟨t, hstep, fun _ => hdone.pc.trans (pcAfter_withCyclesLeft s n i), fun h => absurd hnone h⟩

/-- A step that records a fault takes it at pc: the fetch's, or one whose condition the instruction run meets. -/
theorem step_faults (s t : State) (f : FaultRecord) (hs : s.fault = none) (h : step s = .next t)
    (hf : t.fault = some f) :
    t = takeFault f.code s.pc f.opcode s ∧ f.addr = s.pc ∧
      ((f.code = .fetchOutOfRange ∧ f.opcode = 0#16 ∧ 4096 ≤ s.pc.toNat + 1) ∨
        ∃ i, s.runsNext i ∧ Raises s i f.code ∧ f.opcode = encode i) := by
  obtain ⟨hsome, -⟩ | ⟨-, -, rfl⟩ | ⟨-, -, hpc, rfl⟩ | ⟨i, -, hi, -, -⟩ := step_runs s t h
  · rw [hs] at hsome
    nomatch hsome
  · nomatch hs.symm.trans hf
  · obtain rfl := Option.some.inj hf
    exact ⟨rfl, rfl, .inl ⟨rfl, rfl, hpc⟩⟩
  · obtain ⟨code, hraise, hstep⟩ | ⟨n, t', hstep, hdone⟩ := step_of_runsNext_cases s i hi
    · obtain rfl := Host.Outcome.next.inj (hstep.symm.trans h)
      obtain rfl := Option.some.inj hf
      exact ⟨rfl, rfl, .inr ⟨i, hi, hraise, rfl⟩⟩
    · obtain rfl := Host.Outcome.next.inj (hstep.symm.trans h)
      nomatch (hdone.fault.trans hs).symm.trans hf

/-- The condition that raised a fault of an instruction is the one its record names. -/
theorem Raises.holdsOf {s : State} {i : Instr} {f : FaultRecord} (h : Raises s i f.code) (hi : i.wf = true)
    (hop : f.opcode = encode i) : f.holdsOf s := by
  obtain ⟨code, addr, opcode⟩ := f
  obtain rfl : opcode = encode i := hop
  have hdec : decode (encode i) = i := decode_encode i hi
  cases h with
  | load x h => exact ⟨x, hdec, h⟩
  | sprite x y n hn h => exact ⟨x, y, n, hdec, hn, h⟩
  | stack nnn h => exact ⟨nnn, hdec, h⟩

/-- A fault's record speaks of I and SP, which taking it leaves. -/
theorem FaultRecord.holdsOf_takeFault (f : FaultRecord) (code : FaultCode) (a op : Word) (s : State)
    (h : f.holdsOf s) : f.holdsOf (takeFault code a op s) := h

/-- A recorded fault's condition holds of the state that records it (R96). -/
theorem holdsOf_of_step_fault (s t : State) (f : FaultRecord) (hs : s.fault = none) (h : step s = .next t)
    (hf : t.fault = some f) : f.holdsOf t := by
  obtain ⟨ht, haddr, ⟨hcode, hop, hpc⟩ | ⟨i, hi, hraise, hop⟩⟩ := step_faults s t f hs h hf
  · unfold FaultRecord.holdsOf
    rw [hcode]
    exact ⟨hop, haddr ▸ hpc⟩
  · rw [ht]
    exact f.holdsOf_takeFault _ _ _ s (hraise.holdsOf (wf_of_runsNext hi) hop)

/-- Settles O47: the fault is taken at pc, and its condition was met. -/
theorem faultsArePrecise : Obligations.FaultsArePrecise := by
  intro s t f hs h hf
  obtain ⟨ht, haddr, -⟩ := step_faults s t f hs h hf
  exact ⟨haddr, holdsOf_of_step_fault s t f hs h hf, ht ▸ changesOnly_takeFault_at_pc f.code f.opcode s⟩

/-- Settles O54: the record's word is the encoding of the instruction run, which is the word fetched. -/
theorem faultRecordsHoldTheFetchedWord : Obligations.FaultRecordsHoldTheFetchedWord := by
  intro s t f hs h hf
  obtain ⟨-, -, hfetch | ⟨i, hi, hraise, hop⟩⟩ := step_faults s t f hs h hf
  · exact .inl hfetch
  · refine .inr ⟨by rw [hop, encode_of_runsNext hi, wordOfBytes_toNat], ?_⟩
    obtain ⟨code, addr, opcode⟩ := f
    cases hraise with
    | load x => exact .inl ⟨rfl, x, hi, hop⟩
    | sprite x y n => exact .inr (.inl ⟨rfl, x, y, n, hi, hop⟩)
    | stack nnn => exact .inr (.inr ⟨rfl, nnn, hi, hop⟩)

/-! ### Noninterference -/

/-- An instruction runs on what it reads alone: with the unread pieces put to one value it answers the same but for
them. -/
theorem exec_readPart (i : Instr) (s : State) :
    ∃ t t', exec i s = .next t ∧ exec i s.readPart = .next t' ∧ t'.readPart = t.readPart := by
  by_cases hr : ∃ code, Raises s i code
  · obtain ⟨code, hr⟩ := hr
    have hr' : Raises s.readPart i code := hr.congr rfl rfl
    exact ⟨_, _, exec_of_raises s i code hr, exec_of_raises s.readPart i code hr', rfl⟩
  cases i with
  | call nnn =>
    have hroom : s.sp.val < 16 := room_of_not_raises hr
    exact ⟨_, _, exec_call_of_room nnn s hroom, exec_call_of_room nnn s.readPart hroom, rfl⟩
  | drw x y n =>
    have hin : n.toNat = 0 ∨ s.i.toNat + n.toNat - 1 < 4096 := spriteBytes_of_not_raises hr
    exact ⟨_, _, exec_drw_of_inRange x y n s hin, exec_drw_of_inRange x y n s.readPart hin, rfl⟩
  | ldMem x =>
    have hin : s.i.toNat + x.val < 4096 := loadBytes_of_not_raises hr
    have hload := loadFrom_congr s s.readPart (fun _ => rfl) s.i.toNat (x.val + 1) s.v
    refine ⟨_, _, exec_ldMem_of_inRange x s hin, exec_ldMem_of_inRange x s.readPart hin, ?_⟩
    exact congrArg (fun v => ({ s with v := v } : State).readPart) hload
  | seImm x nn | sneImm x nn | seReg x y | sneReg x y =>
    exact ⟨_, _, rfl, rfl, by rw [skipIf_eq, skipIf_eq]; rfl⟩
  | _ => exact ⟨_, _, rfl, rfl, rfl⟩

/-- A step runs on what it reads alone. -/
theorem step_readPart (s : State) :
    ∃ t t', step s = .next t ∧ step s.readPart = .next t' ∧ t'.readPart = t.readPart := by
  cases hf : s.fault with
  | some f =>
    have hs : s.fault.isSome = true := by rw [hf]; rfl
    exact ⟨s, s.readPart, step_of_halted s hs, step_of_halted s.readPart hs, rfl⟩
  | none =>
    cases hc : s.cyclesLeft with
    | zero => exact ⟨_, _, step_of_between s hf hc, step_of_between s.readPart hf hc, rfl⟩
    | succ n =>
      have hfetch : fetch s.readPart = fetch s := rfl
      cases hw : fetch s with
      | none =>
        have hpos : 0 < s.cyclesLeft := hc ▸ Nat.succ_pos n
        exact ⟨_, _, step_of_fetch_none s hf hpos hw, step_of_fetch_none s.readPart hf hpos (hfetch.trans hw), rfl⟩
      | some w =>
        rw [step_of_fetch_some s n w hf hc hw, step_of_fetch_some s.readPart n w hf hc (hfetch.trans hw)]
        exact exec_readPart (decode w) (advancePc (s.withCyclesLeft n))

/-- Settles O48: both states step as the one state that they share. -/
theorem unreadStateInfluencesNothing : Obligations.UnreadStateInfluencesNothing := by
  intro s s' hsame
  obtain ⟨t, u, ht, hu, htu⟩ := step_readPart s
  obtain ⟨t', u', ht', hu', htu'⟩ := step_readPart s'
  rw [hsame] at hu
  obtain rfl : u = u' := Host.Outcome.next.inj (hu.symm.trans hu')
  exact ⟨t, t', ht, ht', htu.symm.trans htu'⟩

end Sys2Proof.Machine

/-! PROOFS. The ports: the display output and the key write. -/

namespace Sys2Proof.Machine

/-- R33: the host may act exactly when no cycle is left to run. -/
theorem betweenFrames_iff (s : State) : s.betweenFrames = true ↔ s.cyclesLeft = 0 := beq_iff_eq

/-- R33: inside a frame the host may not act. -/
theorem not_betweenFrames (s : State) (h : 0 < s.cyclesLeft) : ¬ s.betweenFrames = true := fun hb =>
  Nat.ne_of_gt h ((betweenFrames_iff s).1 hb)

/-- R110: the word of a lit cell. -/
theorem displayWord_of_lit (s : State) (k : Fin 2048) (h : readCell s.disp k = true) :
    displayWord s k = s.params.pixelOn := if_pos h

/-- R110: the word of a cell that is off. -/
theorem displayWord_of_off (s : State) (k : Fin 2048) (h : readCell s.disp k = false) : displayWord s k = 0#32 :=
  if_neg (by rw [h]; exact Bool.false_ne_true)

/-- R110: the word of a cell is not 0 exactly where the cell is lit, since PIXEL_ON is not 0. -/
theorem displayWord_ne_zero_iff (s : State) (hp : s.params.wf) (k : Fin 2048) :
    displayWord s k ≠ 0#32 ↔ readCell s.disp k = true := by
  cases hk : readCell s.disp k with
  | true => simpa only [displayWord_of_lit s k hk, iff_true] using hp
  | false => simp only [displayWord_of_off s k hk, ne_eq, not_true_eq_false, Bool.false_eq_true]

/-- Settles O49: the output is read word by word, between frames only. -/
theorem displayOutputIsNonZeroExactlyWhereLit : Obligations.DisplayOutputIsNonZeroExactlyWhereLit := by
  intro s hp
  refine ⟨fun hc => if_neg (not_betweenFrames s hc), fun hc => ?_⟩
  refine ⟨Vector.ofFn (displayWord s), if_pos ((betweenFrames_iff s).2 hc), fun k => ?_⟩
  have hword : (Vector.ofFn (displayWord s))[k] = displayWord s k := Vector.getElem_ofFn k.isLt
  rw [hword]
  exact ⟨displayWord_of_lit s k, displayWord_of_off s k, displayWord_ne_zero_iff s hp k⟩

/-- R111: a write of the keys changes the keys alone. -/
theorem changesOnly_keys (keys : Vector Bool 16) (s : State) :
    ChangesOnly (fun p => ∃ k, p = .key k) s { s with keys := keys } := by
  intro p hp
  cases p with
  | key k => exact absurd ⟨k, rfl⟩ hp
  | _ => rfl

/-- Settles O50: the write is made between frames only, and sets the keys alone. -/
theorem keyWriteChangesOnlyTheKeys : Obligations.KeyWriteChangesOnlyTheKeys := fun keys s =>
  ⟨fun hc => if_neg (not_betweenFrames s hc), fun hc =>
    ⟨{ s with keys := keys }, if_pos ((betweenFrames_iff s).2 hc), rfl, changesOnly_keys keys s⟩⟩

end Sys2Proof.Machine

/-! PROOFS. The invariant: what each of its clauses rests on, and its induction over runs. -/

namespace Sys2Proof.Machine

/-! ### pc -/

/-- The advance of a pc that an instruction was fetched at does not wrap. -/
theorem toNat_add_of_fetched (a d : Word) (ha : a.toNat + 1 < 4096) (hd : d.toNat ≤ 4) :
    (a + d).toNat = a.toNat + d.toNat := BitVec.toNat_add_of_lt (by omega)

/-- R17: the table's pc never exceeds 0xFFE + 4 after a fetched instruction; a jump's address has 12 bits. -/
theorem pcAfter_le (s : State) (i : Instr) (h : s.pc.toNat + 1 < 4096) : (pcAfter s i).toNat ≤ 0x1002 := by
  have h2 : (s.pc + 2#16).toNat ≤ 0x1002 := by
    rw [toNat_add_of_fetched s.pc 2#16 h (by decide)]
    exact Nat.add_le_add (show s.pc.toNat ≤ 0x1000 by omega) (Nat.le_refl 2)
  have h4 : (s.pc + 4#16).toNat ≤ 0x1002 := by
    rw [toNat_add_of_fetched s.pc 4#16 h (by decide)]
    exact Nat.add_le_add (show s.pc.toNat ≤ 0xFFE by omega) (Nat.le_refl 4)
  cases i with
  | jp nnn | call nnn =>
    have hlt : (addrOperand nnn).toNat < 4096 := addrOperand_toNat nnn ▸ nnn.isLt
    exact Nat.le_trans (Nat.le_of_lt hlt) (by decide)
  | seImm x nn | sneImm x nn | seReg x y | sneReg x y =>
    simp only [pcAfter]
    split
    · exact h4
    · exact h2
  | _ => exact h2

/-- R17: a step leaves pc where it was or below 0x1003. -/
theorem step_pc_le (s t : State) (hpc : s.pc.toNat ≤ 0x1002) (h : step s = .next t) : t.pc.toNat ≤ 0x1002 := by
  obtain ⟨-, rfl⟩ | ⟨-, -, rfl⟩ | ⟨-, -, -, rfl⟩ | ⟨i, -, hi, -, -⟩ := step_runs s t h
  · exact hpc
  · exact hpc
  · exact hpc
  · obtain ⟨t', ht', hdone, hfault⟩ := pcFollowsTheTableOfPcChanges s i hi
    obtain rfl : t' = t := Host.Outcome.next.inj (ht'.symm.trans h)
    obtain ⟨-, -, hfetched, -⟩ := hi
    by_cases hf : t'.fault = none
    · exact hdone hf ▸ pcAfter_le s i hfetched
    · exact hfault hf ▸ hpc

/-! ### Timers and count -/

/-- R107: timers at 0 stay at 0. -/
theorem step_timers (s t : State) (hz : s.dt = 0#8 ∧ s.st = 0#8) (h : step s = .next t) :
    t.dt = 0#8 ∧ t.st = 0#8 := by
  obtain ⟨hdt, hst⟩ := hz
  cases hf : s.fault with
  | some f =>
    obtain rfl := Host.Outcome.next.inj ((step_of_halted s (by rw [hf]; rfl)).symm.trans h)
    exact ⟨hdt, hst⟩
  | none =>
    obtain hc | hc := Nat.eq_zero_or_pos s.cyclesLeft
    · obtain rfl := Host.Outcome.next.inj ((step_of_between s hf hc).symm.trans h)
      rw [beginFrame_dt, beginFrame_st, hdt, hst]
      exact ⟨rfl, rfl⟩
    · obtain ⟨hkeeps, -⟩ := step_inside_keeps s t hf hc h
      exact ⟨hkeeps.dt.trans hdt, hkeeps.st.trans hst⟩

/-- R28: the start of a frame sets the count to the budget, and a cycle lowers it. -/
theorem step_cyclesLeft_le (s t : State) (hb : s.cyclesLeft ≤ s.params.ipf) (h : step s = .next t) :
    t.cyclesLeft ≤ t.params.ipf := by
  cases hf : s.fault with
  | some f =>
    obtain rfl := Host.Outcome.next.inj ((step_of_halted s (by rw [hf]; rfl)).symm.trans h)
    exact hb
  | none =>
    obtain hc | hc := Nat.eq_zero_or_pos s.cyclesLeft
    · obtain rfl := Host.Outcome.next.inj ((step_of_between s hf hc).symm.trans h)
      exact Nat.le_refl _
    · obtain ⟨hkeeps, -⟩ := step_inside_keeps s t hf hc h
      rw [hkeeps.params]
      exact hkeeps.cyclesLeft.trans hb

/-! ### Stack -/

/-- R73: a pushed address is that of the word after a fetched call. -/
theorem pushed_bounds (a : Word) (h : a.toNat + 1 < 4096) : 2 ≤ (a + 2#16).toNat ∧ (a + 2#16).toNat ≤ 0x1000 := by
  have hadd : (a + 2#16).toNat = a.toNat + 2 := toNat_add_of_fetched a 2#16 h (by decide)
  omega

/-- R19: a step pushes on top at most, so the entries above stay 0. -/
theorem step_stackFree (s t : State) (hs : ∀ k : Fin 16, s.sp.val ≤ k.val → s.stack[k] = 0#16)
    (h : step s = .next t) : ∀ k : Fin 16, t.sp.val ≤ k.val → t.stack[k] = 0#16 := by
  obtain ⟨hstack, hsp⟩ | ⟨nnn, -, top, htop, hsp, -, hother⟩ := onlyCallsMoveTheStack s t h
  · rw [hstack, hsp]
    exact hs
  · intro k hk
    have hne : k ≠ top := fun e => by subst e; omega
    rw [hother k hne]
    exact hs k (by omega)

/-- R65, R73: a step pushes at most one address, that after the call it fetched. -/
theorem step_stackUsed (s t : State)
    (hs : ∀ k : Fin 16, k.val < s.sp.val → 2 ≤ s.stack[k].toNat ∧ s.stack[k].toNat ≤ 0x1000)
    (h : step s = .next t) : ∀ k : Fin 16, k.val < t.sp.val → 2 ≤ t.stack[k].toNat ∧ t.stack[k].toNat ≤ 0x1000 := by
  obtain ⟨hstack, hsp⟩ | ⟨nnn, ⟨-, -, hfetched, -⟩, top, htop, hsp, hpushed, hother⟩ := onlyCallsMoveTheStack s t h
  · rw [hstack, hsp]
    exact hs
  · intro k hk
    by_cases hkt : k = top
    · rw [hkt, hpushed]
      exact pushed_bounds s.pc hfetched
    · have hne : k.val ≠ top.val := fun e => hkt (Fin.ext e)
      rw [hother k hkt]
      exact hs k (by omega)

/-! ### Report and fault -/

/-- R69: a step reports a word only if it is no implemented instruction's. -/
theorem step_reported (s t : State) (hs : ∀ w ∈ s.report, isImplemented w = false) (h : step s = .next t) :
    ∀ w ∈ t.report, isImplemented w = false := by
  obtain ⟨hreport, -⟩ | ⟨raw, hraw, hreport⟩ := reportGrowsOnlyByUnrecognizedWords s t h
  · exact hreport ▸ hs
  · intro w hw
    rw [hreport, List.mem_append, List.mem_singleton] at hw
    obtain hold | rfl := hw
    · exact hs w hold
    · exact (Instr.wf_iff _).1 (wf_of_runsNext hraw) w rfl

/-- R97, R98: a step records a fault at pc and ends the frame, or leaves a recorded one as it was. -/
theorem step_halted (s t : State)
    (hs : ∀ f, s.fault = some f → s.pc = f.addr ∧ s.cyclesLeft = 0 ∧ f.holdsOf s) (h : step s = .next t) :
    ∀ f, t.fault = some f → t.pc = f.addr ∧ t.cyclesLeft = 0 ∧ f.holdsOf t := by
  intro f hf
  cases hfs : s.fault with
  | some g =>
    obtain rfl := Host.Outcome.next.inj ((step_of_halted s (by rw [hfs]; rfl)).symm.trans h)
    exact hs f hf
  | none =>
    obtain ⟨ht, haddr, -⟩ := step_faults s t f hfs h hf
    have hpc : t.pc = s.pc := by rw [ht, takeFault_pc]
    have hcycles : t.cyclesLeft = 0 := by rw [ht, takeFault_cyclesLeft]
    exact ⟨hpc.trans haddr.symm, hcycles, holdsOf_of_step_fault s t f hfs h hf⟩

/-! ### Steps and runs -/

/-- Every step keeps the invariant, each clause by what a step does to its pieces. -/
theorem step_inv (s t : State) (hs : s.Inv) (h : step s = .next t) : t.Inv := by
  obtain ⟨hmem, hparams, -⟩ := step_keeps_memory_params_keys s t h
  exact {
    memory := by rw [hmem, hparams]; exact hs.memory
    pixelOn := by rw [hparams]; exact hs.pixelOn
    pcBound := step_pc_le s t hs.pcBound h
    timers := step_timers s t hs.timers h
    stackFree := step_stackFree s t hs.stackFree h
    stackUsed := step_stackUsed s t hs.stackUsed h
    reported := step_reported s t hs.reported h
    budget := step_cyclesLeft_le s t hs.budget h
    halted := step_halted s t hs.halted h }

/-- Settles O51: by `step_inv`. -/
theorem everyStepKeepsTheInvariant : Obligations.EveryStepKeepsTheInvariant := step_inv

/-- Settles O52: by induction on the number of steps; each goes on and keeps the invariant. -/
theorem everyRunGoesOnAndKeepsTheInvariant : Obligations.EveryRunGoesOnAndKeepsTheInvariant := by
  intro k
  induction k with
  | zero => exact fun s hs => ⟨s, rfl, hs⟩
  | succ k ih =>
    intro s hs
    obtain ⟨u, hu⟩ := step_next s
    obtain ⟨t, ht, hinv⟩ := ih u (step_inv s u hs hu)
    exact ⟨t, (run_succ_of_step k s u hu).trans ht, hinv⟩

end Sys2Proof.Machine
